-- ==== Sys2Proof/Word.lean ====
section
/-! DEFINITION. The widths of the core (spec/00_scope.md R6, R7), the reserved bits of a command word, and the two
forms in which a host's request reaches the core. -/

namespace Sys2Proof

/-- A byte: one ASCII symbol, one decoded unit, one buffer cell (R6, R8). -/
abbrev Byte := BitVec 8

/-- A register or a word of the 32-bit data bus (R6). Every value is unsigned (R7). -/
abbrev Word := BitVec 32

/-- The reserved bits of a command word (R70): 31:10, 7:5 and 3:1. They have no effect (R75); the syntax keeps them
so that no bit of a word is lost. -/
structure Reserved where
  hi : BitVec 22
  mid : BitVec 3
  lo : BitVec 3
deriving DecidableEq, Repr

/-- What the host hands to the core, before decoding: a command word, which is the data of a size-4 write to CTRL
(R70), or a bus transaction, which is a 21-bit descriptor and the 32 data lanes (R77; a read drives no data). -/
inductive Wire where
  | ctrl (w : Word)
  | bus (descriptor : BitVec 21) (data : Word)
deriving DecidableEq, Repr

end Sys2Proof
end

