-- ==== Sys2Proof/Syntax.lean ====
section
/-! DEFINITION. The twenty rows of spec/opcode_table.json as one inductive: the six command forms (spec/30_encoding.md
R74) and the fourteen bus transaction rows (R77). Offsets are split as the table splits them: the window is OFFSET[17:16]
and the index is OFFSET[15:0]. -/

namespace Sys2Proof

inductive Instr where
  /-- CONFIG (R205): START = 0. -/
  | config (op : BitVec 1) (fmt : BitVec 2) (rsv : Reserved)
  /-- ENCODE.RFC (R146). -/
  | encodeRfc (rsv : Reserved)
  /-- ENCODE.CRK (R147). -/
  | encodeCrk (rsv : Reserved)
  /-- DECODE.RFC (R170). -/
  | decodeRfc (rsv : Reserved)
  /-- DECODE.CRK (R171). -/
  | decodeCrk (rsv : Reserved)
  /-- CMD.BADFMT (R206): START = 1 with FMT 0b10 or 0b11. -/
  | cmdBadFmt (op : BitVec 1) (fmt : BitVec 2) (rsv : Reserved)
  /-- RD32 of the register window (R191). -/
  | rd32Reg (off : BitVec 16)
  /-- WR32 of the register window (R192). -/
  | wr32Reg (off : BitVec 16) (data : Word)
  /-- RD8 of the register window (R190). -/
  | rd8Reg (off : BitVec 16)
  /-- WR8 of the register window (R190). -/
  | wr8Reg (off : BitVec 16) (data : Word)
  /-- RD8 of IN_BUF (R198). -/
  | rd8In (idx : BitVec 16)
  /-- RD8 of OUT_BUF (R198). -/
  | rd8Out (idx : BitVec 16)
  /-- WR8 of IN_BUF (R199). -/
  | wr8In (idx : BitVec 16) (data : Word)
  /-- WR8 of OUT_BUF (R199). -/
  | wr8Out (idx : BitVec 16) (data : Word)
  /-- RD32 of IN_BUF (R200). -/
  | rd32In (idx : BitVec 16)
  /-- RD32 of OUT_BUF (R200). -/
  | rd32Out (idx : BitVec 16)
  /-- WR32 of IN_BUF (R201). -/
  | wr32In (idx : BitVec 16) (data : Word)
  /-- WR32 of OUT_BUF (R201). -/
  | wr32Out (idx : BitVec 16) (data : Word)
  /-- RESERVED (R190): a size-1 or size-4 transaction at 0x30000 to 0x3FFFF. -/
  | reservedSpace (we : Bool) (sz : BitVec 2) (idx : BitVec 16) (data : Word)
  /-- BADSIZE (R202): SZ = 0b01 or 0b11, any offset. -/
  | badSize (we : Bool) (sz : BitVec 2) (off : BitVec 18) (data : Word)
deriving DecidableEq, Repr

end Sys2Proof
end

