-- ==== Sys2Proof/WellFormed.lean ====
section
/-! DEFINITION. Which terms of `Instr` are instructions: the side conditions that the opcode table's fixed bits put on
the fields a constructor carries. -/

namespace Sys2Proof

/-- The checks: CMD.BADFMT has a reserved format (R74: w[9] = 1); a RESERVED row has a supported size (SZ[0] = 0) and
a BADSIZE row an unsupported one (SZ[0] = 1) (R77); a read drives no data lanes (R77: "plus, for a write, a data value"). -/
def Instr.wf : Instr → Bool
  | .config _ _ _ => true
  | .encodeRfc _ => true
  | .encodeCrk _ => true
  | .decodeRfc _ => true
  | .decodeCrk _ => true
  | .cmdBadFmt _ fmt _ => fmt.getLsbD 1
  | .rd32Reg _ => true
  | .wr32Reg _ _ => true
  | .rd8Reg _ => true
  | .wr8Reg _ _ => true
  | .rd8In _ => true
  | .rd8Out _ => true
  | .wr8In _ _ => true
  | .wr8Out _ _ => true
  | .rd32In _ => true
  | .rd32Out _ => true
  | .wr32In _ _ => true
  | .wr32Out _ _ => true
  | .reservedSpace we sz _ data => !sz.getLsbD 0 && (we || data == 0)
  | .badSize we sz _ data => sz.getLsbD 0 && (we || data == 0)

end Sys2Proof
end

