-- ==== Sys2Proof/Decode.lean ====
section
/-! DEFINITION. Decoding and encoding (spec/30_encoding.md R70 to R77, spec/opcode_table.json). Every 32-bit command word
falls in exactly one form (R74) and every descriptor in exactly one transaction row, so decoding is total and refuses no
word; `decodeTableWord` alone can answer none, for bits that no wire of the core carries. -/

namespace Sys2Proof

/-- One row of spec/opcode_table.json: `w` belongs to the row when `w &&& mask = pattern`. -/
structure Row (n : Nat) where
  mnemonic : String
  pattern : BitVec n
  mask : BitVec n
deriving DecidableEq, Repr

def Row.hit {n : Nat} (r : Row n) (w : BitVec n) : Bool := w &&& r.mask == r.pattern

def rowConfig : Row 32 := ⟨"CONFIG", 0x000, 0x001⟩
def rowEncodeRfc : Row 32 := ⟨"ENCODE.RFC", 0x001, 0x311⟩
def rowEncodeCrk : Row 32 := ⟨"ENCODE.CRK", 0x101, 0x311⟩
def rowDecodeRfc : Row 32 := ⟨"DECODE.RFC", 0x011, 0x311⟩
def rowDecodeCrk : Row 32 := ⟨"DECODE.CRK", 0x111, 0x311⟩
def rowCmdBadFmt : Row 32 := ⟨"CMD.BADFMT", 0x201, 0x201⟩

/-- The CTRL rows of the opcode table (R74). -/
def ctrlRows : List (Row 32) :=
  [rowConfig, rowEncodeRfc, rowEncodeCrk, rowDecodeRfc, rowDecodeCrk, rowCmdBadFmt]

/-- The BUS rows of the opcode table (R77). -/
def busRows : List (Row 21) :=
  [⟨"RD32", 0x080000, 0x1F0000⟩, ⟨"WR32", 0x180000, 0x1F0000⟩, ⟨"RD8", 0x000000, 0x1F0000⟩,
   ⟨"WR8", 0x100000, 0x1F0000⟩, ⟨"RD8", 0x010000, 0x1F0000⟩, ⟨"RD8", 0x020000, 0x1F0000⟩,
   ⟨"WR8", 0x110000, 0x1F0000⟩, ⟨"WR8", 0x120000, 0x1F0000⟩, ⟨"RD32", 0x090000, 0x1F0000⟩,
   ⟨"RD32", 0x0A0000, 0x1F0000⟩, ⟨"WR32", 0x190000, 0x1F0000⟩, ⟨"WR32", 0x1A0000, 0x1F0000⟩,
   ⟨"RESERVED", 0x030000, 0x070000⟩, ⟨"BADSIZE", 0x040000, 0x040000⟩]

/-- START, w[0] (R70). -/
def ctrlStart (w : Word) : Bool := w.getLsbD 0

/-- OP, w[4] (R71). -/
def ctrlOp (w : Word) : BitVec 1 := w.extractLsb' 4 1

/-- FMT, w[9:8] (R71). -/
def ctrlFmt (w : Word) : BitVec 2 := w.extractLsb' 8 2

/-- The reserved bits 31:10, 7:5 and 3:1 (R70). -/
def ctrlReserved (w : Word) : Reserved := ⟨w.extractLsb' 10 22, w.extractLsb' 5 3, w.extractLsb' 1 3⟩

/-- The form of a command word, by the rows of R74; the last row is the only one left. -/
def decodeCtrl (w : Word) : Instr :=
  if rowConfig.hit w then .config (ctrlOp w) (ctrlFmt w) (ctrlReserved w)
  else if rowEncodeRfc.hit w then .encodeRfc (ctrlReserved w)
  else if rowEncodeCrk.hit w then .encodeCrk (ctrlReserved w)
  else if rowDecodeRfc.hit w then .decodeRfc (ctrlReserved w)
  else if rowDecodeCrk.hit w then .decodeCrk (ctrlReserved w)
  else .cmdBadFmt (ctrlOp w) (ctrlFmt w) (ctrlReserved w)

/-- WE, bit 20 (R77): 1 is a write. -/
def busWe (d : BitVec 21) : Bool := d.getLsbD 20

/-- SZ, bits 19:18 (R77). -/
def busSz (d : BitVec 21) : BitVec 2 := d.extractLsb' 18 2

/-- OFFSET, bits 17:0 (R77). -/
def busOffset (d : BitVec 21) : BitVec 18 := d.extractLsb' 0 18

/-- OFFSET[17:16], the window of the map (R51). -/
def busWindow (d : BitVec 21) : BitVec 2 := d.extractLsb' 16 2

/-- OFFSET[15:0], the index inside the window. -/
def busIndex (d : BitVec 21) : BitVec 16 := d.extractLsb' 0 16

/-- A transaction of the register window, by WE and SZ[1] (1: size 4). -/
def regTransaction (we wide : Bool) (idx : BitVec 16) (data : Word) : Instr :=
  match we, wide with
  | false, true => .rd32Reg idx
  | true, true => .wr32Reg idx data
  | false, false => .rd8Reg idx
  | true, false => .wr8Reg idx data

/-- A transaction of the IN_BUF window. -/
def inTransaction (we wide : Bool) (idx : BitVec 16) (data : Word) : Instr :=
  match we, wide with
  | false, true => .rd32In idx
  | true, true => .wr32In idx data
  | false, false => .rd8In idx
  | true, false => .wr8In idx data

/-- A transaction of the OUT_BUF window. -/
def outTransaction (we wide : Bool) (idx : BitVec 16) (data : Word) : Instr :=
  match we, wide with
  | false, true => .rd32Out idx
  | true, true => .wr32Out idx data
  | false, false => .rd8Out idx
  | true, false => .wr8Out idx data

/-- The transaction of a descriptor and its data lanes (R77): an unsupported size first (SZ[0] = 1, R202), then the window
that OFFSET[17:16] selects (R51). The data lanes of a read carry nothing. -/
def decodeBus (d : BitVec 21) (data : Word) : Instr :=
  if (busSz d).getLsbD 0 then .badSize (busWe d) (busSz d) (busOffset d) (if busWe d then data else 0)
  else if busWindow d = 0 then regTransaction (busWe d) ((busSz d).getLsbD 1) (busIndex d) data
  else if busWindow d = 1 then inTransaction (busWe d) ((busSz d).getLsbD 1) (busIndex d) data
  else if busWindow d = 2 then outTransaction (busWe d) ((busSz d).getLsbD 1) (busIndex d) data
  else .reservedSpace (busWe d) (busSz d) (busIndex d) (if busWe d then data else 0)

/-- Decoding, total on every wire. -/
def decode : Wire → Instr
  | .ctrl w => decodeCtrl w
  | .bus d data => decodeBus d data

/-- A command word from its fields (R70). -/
def ctrlWord (start : BitVec 1) (op : BitVec 1) (fmt : BitVec 2) (r : Reserved) : Word :=
  r.hi ++ fmt ++ r.mid ++ op ++ r.lo ++ start

/-- A descriptor from its fields (R77). -/
def descriptor (we : Bool) (sz : BitVec 2) (off : BitVec 18) : BitVec 21 :=
  BitVec.ofBool we ++ sz ++ off

/-- The OFFSET of an index in a window (R51). -/
def windowOffset (window : BitVec 2) (idx : BitVec 16) : BitVec 18 := window ++ idx

/-- The encoder: the wire of a well-formed instruction. -/
def encode : Instr → Wire
  | .config op fmt r => .ctrl (ctrlWord 0 op fmt r)
  | .encodeRfc r => .ctrl (ctrlWord 1 0 0 r)
  | .encodeCrk r => .ctrl (ctrlWord 1 0 1 r)
  | .decodeRfc r => .ctrl (ctrlWord 1 1 0 r)
  | .decodeCrk r => .ctrl (ctrlWord 1 1 1 r)
  | .cmdBadFmt op fmt r => .ctrl (ctrlWord 1 op fmt r)
  | .rd32Reg off => .bus (descriptor false 2 (windowOffset 0 off)) 0
  | .wr32Reg off data => .bus (descriptor true 2 (windowOffset 0 off)) data
  | .rd8Reg off => .bus (descriptor false 0 (windowOffset 0 off)) 0
  | .wr8Reg off data => .bus (descriptor true 0 (windowOffset 0 off)) data
  | .rd8In idx => .bus (descriptor false 0 (windowOffset 1 idx)) 0
  | .rd8Out idx => .bus (descriptor false 0 (windowOffset 2 idx)) 0
  | .wr8In idx data => .bus (descriptor true 0 (windowOffset 1 idx)) data
  | .wr8Out idx data => .bus (descriptor true 0 (windowOffset 2 idx)) data
  | .rd32In idx => .bus (descriptor false 2 (windowOffset 1 idx)) 0
  | .rd32Out idx => .bus (descriptor false 2 (windowOffset 2 idx)) 0
  | .wr32In idx data => .bus (descriptor true 2 (windowOffset 1 idx)) data
  | .wr32Out idx data => .bus (descriptor true 2 (windowOffset 2 idx)) data
  | .reservedSpace we sz idx data => .bus (descriptor we sz (windowOffset 3 idx)) data
  | .badSize we sz off data => .bus (descriptor we sz off) data

/-- The opcode table's mnemonic of an instruction. -/
def Instr.mnemonic : Instr → String
  | .config _ _ _ => "CONFIG"
  | .encodeRfc _ => "ENCODE.RFC"
  | .encodeCrk _ => "ENCODE.CRK"
  | .decodeRfc _ => "DECODE.RFC"
  | .decodeCrk _ => "DECODE.CRK"
  | .cmdBadFmt _ _ _ => "CMD.BADFMT"
  | .rd32Reg _ => "RD32"
  | .wr32Reg _ _ => "WR32"
  | .rd8Reg _ => "RD8"
  | .wr8Reg _ _ => "WR8"
  | .rd8In _ => "RD8"
  | .rd8Out _ => "RD8"
  | .wr8In _ _ => "WR8"
  | .wr8Out _ _ => "WR8"
  | .rd32In _ => "RD32"
  | .rd32Out _ => "RD32"
  | .wr32In _ _ => "WR32"
  | .wr32Out _ _ => "WR32"
  | .reservedSpace _ _ _ _ => "RESERVED"
  | .badSize _ _ _ _ => "BADSIZE"

/-- A wire that carries no data with a read (R77). -/
def Wire.canonical : Wire → Bool
  | .ctrl _ => true
  | .bus d data => busWe d || data == 0

/-- The wire that an opcode-table word of `nbits` bits stands for. The table numbers a BUS row's descriptor in 21 bits,
which is 3 whole bytes, and gives a CTRL row 1, 2 or 4 bytes of the 32-bit command word; the bits it does not give are 0.
None: bits 23:21 set, which no descriptor has, or a size that no row has. DESIGN CHOICE (log 10): the size tells the two
forms apart. -/
def tableWire (nbits w : Nat) : Option Wire :=
  if 2 ^ nbits ≤ w then none
  else if nbits = 24 then (if w < 2 ^ 21 then some (.bus (BitVec.ofNat 21 w) 0) else none)
  else if nbits = 8 ∨ nbits = 16 ∨ nbits = 32 then some (.ctrl (BitVec.ofNat 32 w))
  else none

/-- The instruction the decoder reads from an opcode-table word. -/
def decodeTableWord (nbits w : Nat) : Option Instr := (tableWire nbits w).map decode

end Sys2Proof
end

