-- ==== Sys2Proof/Config.lean ====
section
/-! DEFINITION. What an implementation fixes (spec/00_scope.md R6: the OPEN parameters) and the free values (00_scope.md,
"Draw": a value a model must leave free). Nothing here has a body that a proof could lean on, but for the stated
constraint on BUF_CAP. LATENCY needs no constant: completion is an engine turn that may stand anywhere among the host's
transactions (R196, R267). BUS_PROTOCOL and RESET_STYLE are "not modelled" (spec/93_implementation_defined.md). -/

namespace Sys2Proof

/-- BUF_CAP minus its least value. -/
opaque Config.bufCapAboveLeast : Fin 65529

/-- BUF_CAP (R6): "8 <= BUF_CAP <= 65536" and nothing more. -/
def Config.bufCap : Nat := Config.bufCapAboveLeast.val + 8

/-- BASE_ADDR (R6, R50): where the platform places the window. -/
opaque Config.baseAddr : Nat

/-- R35: the fixed unknown value of IN_BUF byte `i` after the `k`-th reset, until it is written. -/
opaque Config.inBufInit : (k i : Nat) → Byte

/-- R36: the value of the `k`-th draw for an unspecified OUT_BUF byte. -/
opaque Config.outBufDraw : (k : Nat) → Byte

/-- R60: the data word that comes with the error response of a refused read. -/
opaque Config.refusedReadData : (k : Nat) → Word

/-- R39: ACC, unspecified at reset and between commands. -/
opaque Config.accDraw : (k : Nat) → BitVec 64

/-- R39: NBITS, 0 to 40, unspecified at reset and between commands. -/
opaque Config.nbitsDraw : (k : Nat) → Fin 41

/-- R39: IDX, unspecified at reset and between commands. -/
opaque Config.idxDraw : (k : Nat) → Word

/-- R39: OIDX, unspecified at reset and between commands. -/
opaque Config.oidxDraw : (k : Nat) → Word

/-- R39: M, unspecified at reset and between commands. -/
opaque Config.mDraw : (k : Nat) → Word

end Sys2Proof
end

