-- ==== Sys2Proof/Machine/State.lean ====
section
/-! DEFINITION. The state of the core (spec/10_state.md), the reasons a step can stop, and the state after reset
(spec/70_reset_and_hazards.md R250). -/

namespace Sys2Proof.Machine

/-- A buffer: the bytes that hold a definite value, by index, indexes strictly rising (`Memory.wf`). An index that is
not listed is an unspecified byte (R35, R36); no listed byte equals that, so equal buffers are equal lists (log 14). -/
abbrev Memory := List Host.Cell

/-- The engine phase (R38). -/
inductive Phase where
  | idle
  | run
deriving DecidableEq, Repr

/-- The engine datapath registers (R39): no host transaction shows them. -/
structure Datapath where
  acc : BitVec 64
  nbits : Fin 41
  idx : Word
  oidx : Word
  m : Word
deriving DecidableEq, Repr

/-- The core's answer to the last accepted transaction (R9, R78). The model's own field (log 5). -/
inductive Response where
  /-- No transaction has been accepted since reset. -/
  | none
  /-- A read returned this data word. -/
  | read (data : Word)
  /-- A write was accepted, whether or not it had an effect (R192, R194, R199). -/
  | written
deriving DecidableEq, Repr

/-- What the outside world does next (R4, R58, R196, R253). The model's own (log 3). -/
inductive Input where
  /-- A host transaction or command word arrives. -/
  | wire (w : Wire)
  /-- The engine takes a turn: a running command completes (R196). -/
  | engine
  /-- The reset input is pulsed (R250, R251). -/
  | reset
deriving DecidableEq, Repr

/-- Why the map refuses a transaction (R190). The core only answers BusError; the names are the model's (log 2). -/
inductive BusCause where
  /-- R52, R202: a size other than 1 or 4. -/
  | badSize
  /-- R51: an offset the map reserves. -/
  | reservedOffset
  /-- R53: a size-1 transaction to a register offset. -/
  | registerSize
  /-- R53, R54: a size-4 transaction at an offset that is not a multiple of 4. -/
  | misaligned
  /-- R51, R54: a buffer index at or past BUF_CAP. -/
  | pastBuffer
deriving DecidableEq, Repr

inductive Fault where
  /-- BusError (R60, R190), raised by a transaction that the map refuses: "A model treats BusError as a fault of the
  host's transaction"; the step faults (spec/93_implementation_defined.md). Safe: the core changes no state and goes on,
  the model stops (log 1). `data` is the free word that a refused read returns, none for a write. -/
  | busError (cause : BusCause) (data : Option Word)
deriving DecidableEq, Repr

inductive Refusal where
  /-- An instruction without a meaning yet, raised by an arm of exec that rejects it by name. No arm does. Safe. -/
  | notModelled (mnemonic : String)
deriving DecidableEq, Repr

structure State where
  /-- CTRL.OP (R22). -/
  op : BitVec 1
  /-- CTRL.FMT (R22). -/
  fmt : BitVec 2
  /-- The engine phase, which STATUS.BUSY shows (R38). -/
  phase : Phase
  /-- STATUS.DONE (R26). -/
  done : Bool
  /-- STATUS.ERR (R26). -/
  err : BitVec 4
  /-- IN_LEN (R29). -/
  inLen : Word
  /-- OUT_LEN (R30). -/
  outLen : Word
  /-- ERR_BYTE[7:0] (R31). -/
  errByte : Byte
  /-- ERR_POS (R32). -/
  errPos : Word
  /-- ERR_COUNT (R33). -/
  errCount : Word
  /-- CAPACITY (R34): BUF_CAP, the size of each buffer in bytes. -/
  capacity : Nat
  /-- IN_BUF (R35): the bytes written since reset. -/
  inBuf : Memory
  /-- OUT_BUF (R36): the defined bytes. -/
  outBuf : Memory
  /-- The engine datapath (R39). -/
  datapath : Datapath
  /-- The model's own: the answer of the last accepted transaction (log 5). -/
  response : Response
  /-- The model's own: what the outside world does next (log 3). -/
  inputs : List Input
  /-- The model's own: which draw is next (log 8). -/
  draws : Nat
  /-- The model's own: how many reset pulses there were (log 7). -/
  resets : Nat
deriving DecidableEq, Repr

/-- The datapath's unspecified values at draw `k` (R39). -/
def Datapath.unspecified (k : Nat) : Datapath :=
  { acc := Config.accDraw k, nbits := Config.nbitsDraw k, idx := Config.idxDraw k, oidx := Config.oidxDraw k,
    m := Config.mDraw k }

/-- The core right after reset (R250), with no host transaction waiting. -/
def State.reset : State :=
  { op := 0, fmt := 0, phase := .idle, done := false, err := 0, inLen := 0, outLen := 0, errByte := 0, errPos := 0,
    errCount := 0, capacity := Config.bufCap, inBuf := [], outBuf := [], datapath := Datapath.unspecified 0,
    response := .none, inputs := [], draws := 1, resets := 0 }

end Sys2Proof.Machine
end

