-- ==== Sys2Proof/Machine/Ops.lean ====
section
/-! DEFINITION. The named operations over the buffers, the registers' offsets, the bus answer, and the two whole-machine
operations of the outside world: the BusError answer (spec/20_memory.md R60) and the reset pulse
(spec/70_reset_and_hazards.md R250). -/

namespace Sys2Proof.Machine

/-- The canonical form: indexes strictly rising. An unlisted index is unspecified, which no listed byte is (log 14). -/
abbrev Memory.wf (m : Memory) : Prop := (m.map Prod.fst).Pairwise (· < ·)

/-- The definite byte at an index; none for an unspecified one. -/
def Memory.read? : Memory → Nat → Option Byte
  | [], _ => none
  | (k, v) :: m, a => if k = a then some v else Memory.read? m a

/-- Makes the byte at an index definite, keeping the indexes rising. -/
def Memory.write : Memory → Nat → Byte → Memory
  | [], a, b => [(a, b)]
  | (k, v) :: m, a, b =>
    if a < k then (a, b) :: (k, v) :: m
    else if a = k then (a, b) :: m
    else (k, v) :: Memory.write m a b

/-- The buffer whose bytes from `base` on are the sequence, all others unspecified (R197). -/
def Memory.ofBytes (base : Nat) : List Byte → Memory
  | [] => []
  | b :: bs => (base, b) :: Memory.ofBytes (base + 1) bs

/-- STATUS.BUSY shows the engine phase (R38). -/
def State.busy (s : State) : Bool := s.phase == .run

/-- IN_BUF[i] as a read or a command sees it (R35): the last byte written since reset, else the byte's fixed unknown
value. -/
def State.inByte (s : State) (i : Nat) : Byte := (s.inBuf.read? i).getD (Config.inBufInit s.resets i)

/-- OUT_BUF[i] as a read shows it (R36): a result byte, else draw `k`. -/
def State.outByte (s : State) (k i : Nat) : Byte := (s.outBuf.read? i).getD (Config.outBufDraw k)

/-- The registers of the map (R51). -/
inductive Reg where
  | ctrl
  | status
  | inLen
  | outLen
  | errByte
  | errPos
  | errCount
  | capacity
deriving DecidableEq, Repr

/-- The offset of a register (R51). -/
def Reg.offset : Reg → BitVec 16
  | .ctrl => 0x00
  | .status => 0x04
  | .inLen => 0x08
  | .outLen => 0x0C
  | .errByte => 0x10
  | .errPos => 0x14
  | .errCount => 0x18
  | .capacity => 0x1C

/-- The register at an offset of the register window, for a size-4 transaction (R51, R53). -/
def regAt? (off : BitVec 16) : Option Reg :=
  match off.toNat with
  | 0x00 => some .ctrl
  | 0x04 => some .status
  | 0x08 => some .inLen
  | 0x0C => some .outLen
  | 0x10 => some .errByte
  | 0x14 => some .errPos
  | 0x18 => some .errCount
  | 0x1C => some .capacity
  | _ => none

/-- Why a size-4 transaction of the register window is refused: a register offset is refused for its alignment (R53),
every other offset is reserved (R51). -/
def regWordCause (off : BitVec 16) : BusCause := if off.toNat < 0x20 then .misaligned else .reservedOffset

/-- Why a size-1 transaction of the register window is refused (R53, R51). -/
def regByteCause (off : BitVec 16) : BusCause := if off.toNat < 0x20 then .registerSize else .reservedOffset

/-- A buffer byte is mapped when its index is below BUF_CAP (R51). -/
def State.mapsByte (s : State) (idx : BitVec 16) : Bool := idx.toNat < s.capacity

/-- A buffer word is accepted when its index is a multiple of 4 and its last byte is below BUF_CAP (R54). -/
def State.mapsWord (s : State) (idx : BitVec 16) : Bool := idx.toNat % 4 == 0 && idx.toNat + 3 < s.capacity

/-- Why a buffer word is refused (R54). -/
def wordCause (idx : BitVec 16) : BusCause := if idx.toNat % 4 = 0 then .pastBuffer else .misaligned

/-- BusError (R60): the transaction faults and changes no state; a refused read returns a free word. -/
def busError (we : Bool) (cause : BusCause) (s : State) : Host.Outcome State Fault Refusal :=
  .fault (.busError cause (if we then none else some (Config.refusedReadData s.draws)))

/-- The core answers a transaction it accepted. -/
def State.respond (r : Response) (s : State) : State := { s with response := r }

/-- `k` draws are used up. -/
def State.useDraws (k : Nat) (s : State) : State := { s with draws := s.draws + k }

/-- One IN_BUF byte is written (R199). -/
def State.setInByte (i : Nat) (b : Byte) (s : State) : State := { s with inBuf := s.inBuf.write i b }

/-- CTRL.OP and CTRL.FMT take a write's values (R24). -/
def State.setCtrl (op : BitVec 1) (fmt : BitVec 2) (s : State) : State := { s with op := op, fmt := fmt }

/-- IN_LEN takes a write's value (R29). -/
def State.setInLen (w : Word) (s : State) : State := { s with inLen := w }

/-- The inputs that are still to come. -/
def State.setInputs (rest : List Input) (s : State) : State := { s with inputs := rest }

/-- The reset pulse (R250, R251): registers to 0, buffers and datapath unspecified, engine idle, a running command
abandoned; CAPACITY keeps reading BUF_CAP (R34). The outside world's inputs are no state of the core. -/
def State.resetPulse (s : State) : State :=
  { op := 0, fmt := 0, phase := .idle, done := false, err := 0, inLen := 0, outLen := 0, errByte := 0, errPos := 0,
    errCount := 0, capacity := s.capacity, inBuf := [], outBuf := [], datapath := Datapath.unspecified s.draws,
    response := .none, inputs := s.inputs, draws := s.draws + 1, resets := s.resets + 1 }

/-- The physical address of an offset (R50): "Where the window sits in a system's physical address space is the
platform's choice". -/
def physicalAddress (off : BitVec 18) : Nat := Config.baseAddr + off.toNat

/-- The offset of a physical address, when it lies in the core's window of 0x40000 bytes (R50). -/
def windowOffset? (addr : Nat) : Option (BitVec 18) :=
  if Config.baseAddr ≤ addr ∧ addr < Config.baseAddr + 0x40000 then some (BitVec.ofNat 18 (addr - Config.baseAddr))
  else none

end Sys2Proof.Machine
end

