-- ==== Sys2Proof/Machine/Operands.lean ====
section
/-! DEFINITION. Operand forms: sequences of bits and bytes (spec/00_scope.md R8), the byte lanes of the bus
(spec/20_memory.md R55) and a command's input (spec/30_encoding.md R71, spec/20_memory.md R65). -/

namespace Sys2Proof.Machine

/-- The `n` bits of a value, most significant first (R8). -/
def bitsMsb {n : Nat} (v : BitVec n) : List Bool := (List.range n).map fun i => v.getLsbD (n - 1 - i)

/-- `bits8(b)` (R8). -/
def bits8 (b : Byte) : List Bool := bitsMsb b

/-- `bits5(v)` (R8). -/
def bits5 (v : BitVec 5) : List Bool := bitsMsb v

/-- `num(bs)` (R8): the unsigned number whose most significant bit is the first element. -/
def num (bs : List Bool) : Nat := bs.foldl (fun n b => 2 * n + b.toNat) 0

/-- `B[w*j .. w*j + w-1]`: the `j`-th field of `w` bits. -/
def field (w : Nat) (bs : List Bool) (j : Nat) : List Bool := (bs.drop (w * j)).take w

/-- Byte lane `k` of a data word, little-endian (R55): w[8k+7:8k]. -/
def lane (w : Word) (k : Nat) : Byte := w.extractLsb' (8 * k) 8

/-- The word of four bytes, the first in bits 7:0 (R55). -/
def wordOfBytes (b0 b1 b2 b3 : Byte) : Word := b3 ++ b2 ++ b1 ++ b0

/-- The data word of a size-1 read: the byte in bits 7:0, zeros above (R198). -/
def wordOfByte (b : Byte) : Word := b.setWidth 32

/-- The size-4 read of IN_BUF at index `i` (R55, R200). -/
def State.inWord (s : State) (i : Nat) : Word :=
  wordOfBytes (s.inByte i) (s.inByte (i + 1)) (s.inByte (i + 2)) (s.inByte (i + 3))

/-- The size-4 read of OUT_BUF at index `i`: each unspecified byte is drawn on its own (R200). -/
def State.outWord (s : State) (i : Nat) : Word :=
  wordOfBytes (s.outByte s.draws i) (s.outByte (s.draws + 1) (i + 1)) (s.outByte (s.draws + 2) (i + 2))
    (s.outByte (s.draws + 3) (i + 3))

/-- The size-4 write of IN_BUF at index `i` (R55, R201). -/
def State.setInWord (i : Nat) (w : Word) (s : State) : State :=
  (((s.setInByte i (lane w 0)).setInByte (i + 1) (lane w 1)).setInByte (i + 2) (lane w 2)).setInByte (i + 3) (lane w 3)

/-- The first `n` bytes of a buffer: the input of a command, IN_BUF[0 .. n-1] (R71). -/
def bufferInput (inByte : Nat → Byte) (n : Nat) : List Byte := (List.range n).map inByte

end Sys2Proof.Machine
end

