-- ==== Sys2Proof/Machine/Flags.lean ====
section
/-! DEFINITION. The flags (spec/10_state.md R40), the error kinds and their codes (spec/60_exceptions.md R221), a
command's outcome (spec/00_scope.md R11), and the register views that host reads return (spec/10_state.md R22 to R34). -/

namespace Sys2Proof.Machine

/-- The error kinds (R221). InvalidArgument has a code and is never produced (R222). -/
inductive ErrKind where
  | invalidOption
  | invalidArgument
  | invalidLength
  | invalidPadding
  | illegalCharacter
  | capacityExceeded
deriving DecidableEq, Repr

/-- The codes of STATUS.ERR (R221). -/
def ErrKind.code : ErrKind → BitVec 4
  | .invalidOption => 1
  | .invalidArgument => 2
  | .invalidLength => 3
  | .invalidPadding => 4
  | .illegalCharacter => 5
  | .capacityExceeded => 6

/-- The context of an error (R11). -/
structure ErrCtx where
  byte : Byte
  pos : Word
  count : Word
deriving DecidableEq, Repr

/-- The outcome of a codec function or a command (R11): a value, not a trap (R9). -/
inductive Result where
  | ok (bytes : List Byte)
  | err (kind : ErrKind) (ctx : ErrCtx)
deriving DecidableEq, Repr

/-- An error whose only context is a count (R224). -/
def Result.failCount (k : ErrKind) (n : Nat) : Result := .err k { byte := 0, pos := 0, count := BitVec.ofNat 32 n }

/-- IllegalCharacter with the byte and its 1-based position (R165, R224). -/
def Result.failByte (b : Byte) (pos : Nat) : Result :=
  .err .illegalCharacter { byte := b, pos := BitVec.ofNat 32 pos, count := 0 }

/-- A read of CTRL (R23): `{22'b0, FMT, 3'b0, OP, 3'b0, 1'b0}`. -/
def State.ctrlView (s : State) : Word := 0#22 ++ s.fmt ++ 0#3 ++ s.op ++ 0#3 ++ 0#1

/-- A read of STATUS (R26): BUSY in bit 0, DONE in bit 1, ERR in bits 11:8, zeros elsewhere. -/
def State.statusView (s : State) : Word :=
  0#20 ++ s.err ++ 0#6 ++ BitVec.ofBool s.done ++ BitVec.ofBool s.busy

/-- The value a size-4 read of a register returns (R191). -/
def State.readReg (s : State) : Reg → Word
  | .ctrl => s.ctrlView
  | .status => s.statusView
  | .inLen => s.inLen
  | .outLen => s.outLen
  | .errByte => s.errByte.setWidth 32
  | .errPos => s.errPos
  | .errCount => s.errCount
  | .capacity => BitVec.ofNat 32 s.capacity

/-- `start_command()` (R193), run by an accepted START: the engine runs, the record and OUT_BUF are cleared. The engine's
datapath is not specified from here on (R39). -/
def State.startCommand (s : State) : State :=
  { s with
    phase := .run, done := false, err := 0, outLen := 0, errByte := 0, errPos := 0, errCount := 0, outBuf := [],
    datapath := Datapath.unspecified s.draws, draws := s.draws + 1 }

/-- Completion publishes a command's outcome in one action (R197). It is this core's only analogue of taking an exception
(R233): ERR, ERR_BYTE, ERR_POS and ERR_COUNT are the record; no vector, no mode. -/
def State.publish (r : Result) (s : State) : State :=
  match r with
  | .ok bytes =>
    { s with
      phase := .idle, done := true, err := 0, outLen := BitVec.ofNat 32 bytes.length, errByte := 0, errPos := 0,
      errCount := 0, outBuf := Memory.ofBytes 0 bytes, datapath := Datapath.unspecified s.draws, draws := s.draws + 1 }
  | .err kind ctx =>
    { s with
      phase := .idle, done := true, err := kind.code, outLen := 0, errByte := ctx.byte, errPos := ctx.pos,
      errCount := ctx.count, outBuf := [], datapath := Datapath.unspecified s.draws, draws := s.draws + 1 }

end Sys2Proof.Machine
end

