-- ==== Sys2Proof/Machine/SymbolMapper.lean ====
section
/-! DEFINITION. symbol_mapper (spec/40_symbol_mapper.md): the four constant tables and the two lookups. The tables are
ROMs, "constant from power-up, never written" (spec/10_state.md R37), so they are definitions and no field of State
(log 15). -/

namespace Sys2Proof.Machine

/-- The format after the InvalidOption filter (R2, R100). -/
inductive Format where
  | rfc
  | crk
deriving DecidableEq, Repr

/-- ENC_RFC (R101): `ABCDEFGHIJKLMNOPQRSTUVWXYZ234567`. -/
def encRfc : List Byte :=
  [0x41, 0x42, 0x43, 0x44, 0x45, 0x46, 0x47, 0x48, 0x49, 0x4A, 0x4B, 0x4C, 0x4D, 0x4E, 0x4F, 0x50] ++
  [0x51, 0x52, 0x53, 0x54, 0x55, 0x56, 0x57, 0x58, 0x59, 0x5A, 0x32, 0x33, 0x34, 0x35, 0x36, 0x37]

/-- ENC_CRK (R101): `0123456789ABCDEFGHJKMNPQRSTVWXYZ`. -/
def encCrk : List Byte :=
  [0x30, 0x31, 0x32, 0x33, 0x34, 0x35, 0x36, 0x37, 0x38, 0x39, 0x41, 0x42, 0x43, 0x44, 0x45, 0x46] ++
  [0x47, 0x48, 0x4A, 0x4B, 0x4D, 0x4E, 0x50, 0x51, 0x52, 0x53, 0x54, 0x56, 0x57, 0x58, 0x59, 0x5A]

/-- The encode table of a format. -/
def encRom : Format → List Byte
  | .rfc => encRfc
  | .crk => encCrk

/-- `enc_map(f, v)` (R106). -/
def encMap (f : Format) (v : BitVec 5) : Byte := (encRom f).getD v.toNat 0

/-- An entry of DEC_RFC (R102); none is `ok = 0` (R105). -/
def decRfc (c : Byte) : Option (BitVec 5) :=
  let n := c.toNat
  if 0x41 ≤ n ∧ n ≤ 0x5A then some (BitVec.ofNat 5 (n - 0x41))
  else if 0x61 ≤ n ∧ n ≤ 0x7A then some (BitVec.ofNat 5 (n - 0x61))
  else if 0x32 ≤ n ∧ n ≤ 0x37 then some (BitVec.ofNat 5 (n - 0x32 + 26))
  else none

/-- Lower case folded to upper case, on the ASCII letters only (R10, R103). -/
def foldCase (c : Byte) : Byte := if 0x61 ≤ c.toNat ∧ c.toNat ≤ 0x7A then c - 0x20 else c

/-- An entry of DEC_CRK (R103): digits, the aliases I and L of 1 and O of 0, U always invalid, the letters of ENC_CRK. -/
def decCrk (c : Byte) : Option (BitVec 5) :=
  let u := (foldCase c).toNat
  if 0x30 ≤ u ∧ u ≤ 0x39 then some (BitVec.ofNat 5 (u - 0x30))
  else if u = 0x49 ∨ u = 0x4C then some 1
  else if u = 0x4F then some 0
  else if u = 0x55 then none
  else (encCrk.idxOf? (foldCase c)).map (BitVec.ofNat 5)

/-- `dec_map(f, c)` (R107). -/
def decMap (f : Format) (c : Byte) : Option (BitVec 5) :=
  match f with
  | .rfc => decRfc c
  | .crk => decCrk c

/-- The `dec_map` port (R100): `ok`, and `val`, which is 0 when `ok` = 0. -/
def decPort (f : Format) (c : Byte) : Bool × BitVec 5 := ((decMap f c).isSome, (decMap f c).getD 0)

/-- The decode table of a format as a ROM (R104): exactly 256 entries, indexed by the byte. -/
def decRom (f : Format) : List (Option (BitVec 5)) := (List.range 256).map fun n => decMap f (BitVec.ofNat 8 n)

end Sys2Proof.Machine
end

