-- ==== Sys2Proof/Machine/PaddingValidator.lean ====
section
/-! DEFINITION. padding_validator (spec/41_padding_validator.md): how many `=` the encoder appends, and which lengths and
trailing `=` counts the RFC 4648 decoder accepts. -/

namespace Sys2Proof.Machine

/-- `=` (R120). -/
def padByte : Byte := 0x3D

/-- `pad_gen(n)` (R128). -/
def padGen (n : Nat) : Nat := [0, 6, 4, 3, 1].getD (n % 5) 0

/-- The `pad_gen` port (R120): a 32-bit length, a 3-bit pad count (log 23). -/
def padGenPort (n : Word) : BitVec 3 := BitVec.ofNat 3 (padGen n.toNat)

/-- The trailing `=` count of a text (R123): every consecutive `=` at the end. -/
def trailingEq (t : List Byte) : Nat := (t.reverse.takeWhile (· == padByte)).length

/-- The verdict of `pad_check` (R120): OK carries the data-symbol count. -/
inductive Verdict where
  | ok (m : Nat)
  | invalidLength
  | invalidPadding
deriving DecidableEq, Repr

/-- The `verdict` output of `pad_check` (R120). -/
inductive VerdictCode where
  | ok
  | invalidLength
  | invalidPadding
deriving DecidableEq, Repr

def Verdict.code : Verdict → VerdictCode
  | .ok _ => .ok
  | .invalidLength => .invalidLength
  | .invalidPadding => .invalidPadding

/-- The `m` output of `pad_check` (R120): the data-symbol count, 0 unless OK. -/
def Verdict.symbols : Verdict → Nat
  | .ok m => m
  | .invalidLength => 0
  | .invalidPadding => 0

/-- `pad_check(L, p)` (R129): the length first, then the padding. -/
def padCheck (len p : Nat) : Verdict :=
  if len % 8 ≠ 0 then .invalidLength
  else if 6 < p ∨ p = 2 ∨ p = 5 ∨ p = 7 then .invalidPadding
  else .ok (len - p)

/-- The `pad_check` port (R120): 32-bit length and count, the pair `(verdict, m)` of R129 (log 23). -/
def padCheckPort (len p : Word) : VerdictCode × Word :=
  ((padCheck len.toNat p.toNat).code, BitVec.ofNat 32 (padCheck len.toNat p.toNat).symbols)

end Sys2Proof.Machine
end

