-- ==== Sys2Proof/Machine/Encoder.lean ====
section
/-! DEFINITION. base32_encoder (spec/42_encoder.md): the encode function as a whole (R145) and the output lengths that the
capacity check uses (R148, R230). The grouped datapath of R141 to R143 is Machine/ReferenceDatapath.lean. -/

namespace Sys2Proof.Machine

/-- `ceil(8n/5)`: the symbols before padding (R145, R148). -/
def symbolCount (n : Nat) : Nat := (8 * n + 4) / 5

/-- `enc_len(f, n)` (R230). -/
def encLen (f : Format) (n : Nat) : Nat :=
  match f with
  | .rfc => 8 * ((n + 4) / 5)
  | .crk => symbolCount n

/-- The input's bits followed by 0 to 4 zero bits (R145). -/
def paddedBits (d : List Byte) : List Bool :=
  d.flatMap bits8 ++ List.replicate (5 * symbolCount d.length - 8 * d.length) false

/-- The symbols before padding (R145). -/
def encodeSymbols (f : Format) (d : List Byte) : List Byte :=
  (List.range (symbolCount d.length)).map fun j => encMap f (BitVec.ofNat 5 (num (field 5 (paddedBits d) j)))

/-- The padding of a format (R144): RFC only. -/
def encodePadding (f : Format) (n : Nat) : List Byte :=
  match f with
  | .rfc => List.replicate (padGen n) padByte
  | .crk => []

/-- `encode(f, d)` (R145). -/
def encodeText (f : Format) (d : List Byte) : List Byte := encodeSymbols f d ++ encodePadding f d.length

end Sys2Proof.Machine
end

