-- ==== Sys2Proof/Machine/Decoder.lean ====
section
/-! DEFINITION. base32_decoder (spec/43_decoder.md): the decode function as a whole (R168). The 40-bit accumulator of R166
is Machine/ReferenceDatapath.lean. -/

namespace Sys2Proof.Machine

/-- `-` (R164). -/
def hyphen : Byte := 0x2D

/-- What one scan of the symbols finds: the values, or the first illegal byte and its 1-based position (R163 to R165). -/
inductive Scan where
  | values (vs : List (BitVec 5))
  | illegal (b : Byte) (pos : Nat)
deriving DecidableEq, Repr

/-- A value found before the rest of the scan. -/
def Scan.cons (v : BitVec 5) : Scan → Scan
  | .values vs => .values (v :: vs)
  | .illegal b pos => .illegal b pos

/-- Whether the scan skips a byte: a hyphen, in Crockford only (R164). -/
def skips (f : Format) (c : Byte) : Bool := f == .crk && c == hyphen

/-- The linear scan (R163, R164), `i` bytes of the text lying before this part. The first byte that the table does not
know ends it (R165); its position counts every byte of the text. -/
def scanFrom (f : Format) (i : Nat) : List Byte → Scan
  | [] => .values []
  | c :: t =>
    if skips f c then scanFrom f (i + 1) t
    else
      match decMap f c with
      | some v => (scanFrom f (i + 1) t).cons v
      | none => .illegal c (i + 1)

/-- The bytes of the scanned values (R166, R168): the first `floor(5M/8)` bytes of their bits; the last `5M mod 8` bits are
dropped unchecked (R167). -/
def unpack (vs : List (BitVec 5)) : List Byte :=
  (List.range (5 * vs.length / 8)).map fun j => BitVec.ofNat 8 (num (field 8 (vs.flatMap bits5) j))

/-- The outcome of a scan (R165, R168). -/
def Scan.result : Scan → Result
  | .values vs => .ok (unpack vs)
  | .illegal b pos => .failByte b pos

/-- `decode(f, t)` (R168). -/
def decodeText (f : Format) (t : List Byte) : Result :=
  if t = [] then .ok []
  else
    match f with
    | .crk => (scanFrom .crk 0 t).result
    | .rfc =>
      match padCheck t.length (trailingEq t) with
      | .invalidLength => .failCount .invalidLength t.length
      | .invalidPadding => .failCount .invalidPadding (trailingEq t)
      | .ok m => (scanFrom .rfc 0 (t.take m)).result

end Sys2Proof.Machine
end

