-- ==== Sys2Proof/Machine/ReferenceDatapath.lean ====
section
/-! DEFINITION. The reference datapath (spec/10_state.md R39): the encoder packs one group of up to 5 bytes into ACC and
takes 5-bit fields from it (spec/42_encoder.md R141 to R143); the decoder shifts 5-bit values into ACC and emits 5 bytes
whenever NBITS reaches 40 (spec/43_decoder.md R166). "A model may keep them or compute each command as the whole
functions": the step computes the whole functions, and these are what they are compared with (log 9). -/

namespace Sys2Proof.Machine

/-- ACC after the bytes of a group, most significant byte first (R142, R143). -/
def packGroup (g : List Byte) : BitVec 64 := g.foldl (fun acc b => (acc <<< 8) ||| b.setWidth 64) 0

/-- The symbols of one group of `r` bytes (R142, R143): `floor(8r/5)` fields from the most significant, then the
`q = 8r mod 5` leftover bits shifted left over zeros. -/
def groupSymbols (f : Format) (g : List Byte) : List Byte :=
  let w := 8 * g.length
  let acc := packGroup g
  let q := w % 5
  let full := (List.range (w / 5)).map fun j => encMap f (acc.extractLsb' (w - 5 * (j + 1)) 5)
  if q = 0 then full else full ++ [encMap f ((acc.extractLsb' 0 q).setWidth 5 <<< (5 - q))]

/-- The groups in order (R141): full groups of 5 bytes, then the partial group if there is one. -/
def encodeGroups (f : Format) : List Byte → List Byte
  | b0 :: b1 :: b2 :: b3 :: b4 :: rest => groupSymbols f [b0, b1, b2, b3, b4] ++ encodeGroups f rest
  | [] => []
  | partialGroup => groupSymbols f partialGroup

/-- The encoder by groups (R141 to R144). -/
def encodeByGroups (f : Format) (d : List Byte) : List Byte := encodeGroups f d ++ encodePadding f d.length

/-- The decoder's datapath when a scan begins (R160: one linear scan from t[0]). -/
def Datapath.start : Datapath := { acc := 0, nbits := 0, idx := 0, oidx := 0, m := 0 }

/-- Byte `j` of the `k` buffered bits, most significant first. -/
def accByte (acc : BitVec 64) (k j : Nat) : Byte := acc.extractLsb' (k - 8 * (j + 1)) 8

/-- One value is shifted into ACC; when 40 bits are buffered, 5 bytes are emitted and the bits dropped (R166). -/
def Datapath.shiftIn (dp : Datapath) (v : BitVec 5) : Datapath × List Byte :=
  let acc := (dp.acc <<< 5) ||| v.setWidth 64
  let n := dp.nbits.val + 5
  if n = 40 then
    ({ acc := 0, nbits := 0, idx := dp.idx + 1, oidx := dp.oidx + 5, m := dp.m + 1 },
      (List.range 5).map (accByte acc 40))
  else ({ dp with acc := acc, nbits := Fin.ofNat 41 n, idx := dp.idx + 1, m := dp.m + 1 }, [])

/-- After the scan the buffered bits yield their whole bytes; the last bits are discarded (R166). -/
def Datapath.flush (dp : Datapath) : List Byte := (List.range (dp.nbits.val / 8)).map (accByte dp.acc dp.nbits.val)

/-- The scan on the datapath: IDX counts every byte, a hyphen shifts nothing in (R164), the first illegal byte ends it
with its 1-based position (R165). -/
def Datapath.scan (f : Format) (dp : Datapath) (out : List Byte) : List Byte → Result
  | [] => .ok (out ++ dp.flush)
  | c :: t =>
    if skips f c then Datapath.scan f { dp with idx := dp.idx + 1 } out t
    else
      match decMap f c with
      | some v => Datapath.scan f (dp.shiftIn v).1 (out ++ (dp.shiftIn v).2) t
      | none => .err .illegalCharacter { byte := c, pos := dp.idx + 1, count := 0 }

/-- The decoder on the datapath (R161 to R166). -/
def decodeByDatapath (f : Format) (t : List Byte) : Result :=
  if t = [] then .ok []
  else
    match f with
    | .crk => Datapath.scan .crk .start [] t
    | .rfc =>
      match padCheck t.length (trailingEq t) with
      | .invalidLength => .failCount .invalidLength t.length
      | .invalidPadding => .failCount .invalidPadding (trailingEq t)
      | .ok m => Datapath.scan .rfc .start [] (t.take m)

end Sys2Proof.Machine
end

