-- ==== Sys2Proof/Machine/Engine.lean ====
section
/-! DEFINITION. The engine: the outcome of each command form (spec/42_encoder.md R146, R147; spec/43_decoder.md R170,
R171; spec/44_host_interface.md R206), the dispatch in the order of spec/60_exceptions.md R230, and completion
(spec/44_host_interface.md R195 to R197). -/

namespace Sys2Proof.Machine

/-- ENCODE.RFC's outcome (R146). -/
def outcomeEncodeRfc (cap n : Nat) (inByte : Nat → Byte) : Result :=
  if cap < n then .failCount .capacityExceeded n
  else if cap < encLen .rfc n then .failCount .capacityExceeded (encLen .rfc n)
  else .ok (encodeText .rfc (bufferInput inByte n))

/-- ENCODE.CRK's outcome (R147). -/
def outcomeEncodeCrk (cap n : Nat) (inByte : Nat → Byte) : Result :=
  if cap < n then .failCount .capacityExceeded n
  else if cap < encLen .crk n then .failCount .capacityExceeded (encLen .crk n)
  else .ok (encodeText .crk (bufferInput inByte n))

/-- DECODE.RFC's outcome (R170). -/
def outcomeDecodeRfc (cap n : Nat) (inByte : Nat → Byte) : Result :=
  if cap < n then .failCount .capacityExceeded n else decodeText .rfc (bufferInput inByte n)

/-- DECODE.CRK's outcome (R171). -/
def outcomeDecodeCrk (cap n : Nat) (inByte : Nat → Byte) : Result :=
  if cap < n then .failCount .capacityExceeded n else decodeText .crk (bufferInput inByte n)

/-- CMD.BADFMT's outcome (R206, R226): no byte is read and the length is not checked. -/
def outcomeBadFmt (fmt : BitVec 2) : Result := .failCount .invalidOption fmt.toNat

/-- `run(op, fmt, n, IN_BUF)` (R195, R230): the format first, then the form's own checks. -/
def runCommand (cap : Nat) (op : BitVec 1) (fmt : BitVec 2) (n : Nat) (inByte : Nat → Byte) : Result :=
  if fmt.getLsbD 1 then outcomeBadFmt fmt
  else if op = 0 then
    if fmt = 0 then outcomeEncodeRfc cap n inByte else outcomeEncodeCrk cap n inByte
  else
    if fmt = 0 then outcomeDecodeRfc cap n inByte else outcomeDecodeCrk cap n inByte

/-- The outcome of the running command, from its operands as they stand (R38, R195). -/
def State.outcome (s : State) : Result := runCommand s.capacity s.op s.fmt s.inLen.toNat s.inByte

/-- An engine turn: a running command completes in one action (R196); an idle engine does nothing. -/
def State.engineTurn (s : State) : State := if s.busy then s.publish s.outcome else s

end Sys2Proof.Machine
end

