-- ==== Sys2Proof/Machine/Commands.lean ====
section
/-! DEFINITION. The meanings of the six command forms (spec/30_encoding.md R74): each is one size-4 write to CTRL. A START
sets the engine running (spec/44_host_interface.md R193); the form's outcome is published at completion, by the engine's
turn (R196). Reserved bits have no effect (R75). -/

namespace Sys2Proof.Machine

/-- A write of CTRL (R24, R192): ignored while BUSY (R194), else OP and FMT are stored and, with START, a command begins,
as one action. -/
def State.acceptCtrl (start : Bool) (op : BitVec 1) (fmt : BitVec 2) (s : State) : State :=
  if s.busy then s
  else if start then (s.setCtrl op fmt).startCommand
  else s.setCtrl op fmt

/-- CONFIG (R205). -/
def execConfig (op : BitVec 1) (fmt : BitVec 2) (_rsv : Reserved) (s : State) : Host.Outcome State Fault Refusal :=
  .next ((s.acceptCtrl false op fmt).respond .written)

/-- ENCODE.RFC (R146). -/
def execEncodeRfc (_rsv : Reserved) (s : State) : Host.Outcome State Fault Refusal :=
  .next ((s.acceptCtrl true 0 0).respond .written)

/-- ENCODE.CRK (R147). -/
def execEncodeCrk (_rsv : Reserved) (s : State) : Host.Outcome State Fault Refusal :=
  .next ((s.acceptCtrl true 0 1).respond .written)

/-- DECODE.RFC (R170). -/
def execDecodeRfc (_rsv : Reserved) (s : State) : Host.Outcome State Fault Refusal :=
  .next ((s.acceptCtrl true 1 0).respond .written)

/-- DECODE.CRK (R171). -/
def execDecodeCrk (_rsv : Reserved) (s : State) : Host.Outcome State Fault Refusal :=
  .next ((s.acceptCtrl true 1 1).respond .written)

/-- CMD.BADFMT (R206): the command starts, and completes with InvalidOption. -/
def execCmdBadFmt (op : BitVec 1) (fmt : BitVec 2) (_rsv : Reserved) (s : State) : Host.Outcome State Fault Refusal :=
  .next ((s.acceptCtrl true op fmt).respond .written)

end Sys2Proof.Machine
end

