-- ==== Sys2Proof/Machine/Transactions.lean ====
section
/-! DEFINITION. The meanings of the fourteen bus transaction rows (spec/44_host_interface.md R190 to R202). Each first
checks the map (R190): a refused transaction raises BusError and does nothing else. -/

namespace Sys2Proof.Machine

/-- A size-4 write of a register (R192): CTRL takes a command word, IN_LEN a value, both only while idle (R194); every
other register ignores it. -/
def State.writeReg (r : Reg) (w : Word) (s : State) : State :=
  match r with
  | .ctrl => s.acceptCtrl (ctrlStart w) (ctrlOp w) (ctrlFmt w)
  | .inLen => if s.busy then s else s.setInLen w
  | .status => s
  | .outLen => s
  | .errByte => s
  | .errPos => s
  | .errCount => s
  | .capacity => s

/-- RD32 of a register (R191). -/
def execRd32Reg (off : BitVec 16) (s : State) : Host.Outcome State Fault Refusal :=
  match regAt? off with
  | some r => .next (s.respond (.read (s.readReg r)))
  | none => busError false (regWordCause off) s

/-- WR32 of a register (R192). -/
def execWr32Reg (off : BitVec 16) (data : Word) (s : State) : Host.Outcome State Fault Refusal :=
  match regAt? off with
  | some r => .next ((s.writeReg r data).respond .written)
  | none => busError true (regWordCause off) s

/-- RD8 of the register window (R53, R51): BusError at every offset. -/
def execRd8Reg (off : BitVec 16) (s : State) : Host.Outcome State Fault Refusal := busError false (regByteCause off) s

/-- WR8 of the register window (R53, R51): BusError at every offset. -/
def execWr8Reg (off : BitVec 16) (_data : Word) (s : State) : Host.Outcome State Fault Refusal :=
  busError true (regByteCause off) s

/-- RD8 of IN_BUF (R198). -/
def execRd8In (idx : BitVec 16) (s : State) : Host.Outcome State Fault Refusal :=
  if s.mapsByte idx then .next (s.respond (.read (wordOfByte (s.inByte idx.toNat))))
  else busError false .pastBuffer s

/-- RD8 of OUT_BUF (R198): an unspecified byte returns a fresh draw. -/
def execRd8Out (idx : BitVec 16) (s : State) : Host.Outcome State Fault Refusal :=
  if s.mapsByte idx then .next ((s.useDraws 1).respond (.read (wordOfByte (s.outByte s.draws idx.toNat))))
  else busError false .pastBuffer s

/-- WR8 of IN_BUF (R199): ignored while BUSY; data bits 31:8 ignored. -/
def execWr8In (idx : BitVec 16) (data : Word) (s : State) : Host.Outcome State Fault Refusal :=
  if s.mapsByte idx then .next ((if s.busy then s else s.setInByte idx.toNat (lane data 0)).respond .written)
  else busError true .pastBuffer s

/-- WR8 of OUT_BUF (R199): accepted and ignored. -/
def execWr8Out (idx : BitVec 16) (_data : Word) (s : State) : Host.Outcome State Fault Refusal :=
  if s.mapsByte idx then .next (s.respond .written) else busError true .pastBuffer s

/-- RD32 of IN_BUF (R200). -/
def execRd32In (idx : BitVec 16) (s : State) : Host.Outcome State Fault Refusal :=
  if s.mapsWord idx then .next (s.respond (.read (s.inWord idx.toNat))) else busError false (wordCause idx) s

/-- RD32 of OUT_BUF (R200): each unspecified byte is drawn on its own. -/
def execRd32Out (idx : BitVec 16) (s : State) : Host.Outcome State Fault Refusal :=
  if s.mapsWord idx then .next ((s.useDraws 4).respond (.read (s.outWord idx.toNat)))
  else busError false (wordCause idx) s

/-- WR32 of IN_BUF (R201): all four bytes, or none while BUSY. -/
def execWr32In (idx : BitVec 16) (data : Word) (s : State) : Host.Outcome State Fault Refusal :=
  if s.mapsWord idx then .next ((if s.busy then s else s.setInWord idx.toNat data).respond .written)
  else busError true (wordCause idx) s

/-- WR32 of OUT_BUF (R201): accepted and ignored. -/
def execWr32Out (idx : BitVec 16) (_data : Word) (s : State) : Host.Outcome State Fault Refusal :=
  if s.mapsWord idx then .next (s.respond .written) else busError true (wordCause idx) s

/-- RESERVED (R51, R190): BusError at every offset from 0x30000 on. -/
def execReservedSpace (we : Bool) (_sz : BitVec 2) (_idx : BitVec 16) (_data : Word) (s : State) :
    Host.Outcome State Fault Refusal :=
  busError we .reservedOffset s

/-- BADSIZE (R52, R202): BusError at every offset. -/
def execBadSize (we : Bool) (_sz : BitVec 2) (_off : BitVec 18) (_data : Word) (s : State) :
    Host.Outcome State Fault Refusal :=
  busError we .badSize s

end Sys2Proof.Machine
end

