-- ==== Sys2Proof/Machine/Dispatch.lean ====
section
/-! DEFINITION. One arm per row of spec/opcode_table.json. -/

namespace Sys2Proof.Machine

def exec (i : Instr) (s : State) : Host.Outcome State Fault Refusal :=
  match i with
  | .config op fmt rsv => Sys2Proof.Machine.execConfig op fmt rsv s
  | .encodeRfc rsv => Sys2Proof.Machine.execEncodeRfc rsv s
  | .encodeCrk rsv => Sys2Proof.Machine.execEncodeCrk rsv s
  | .decodeRfc rsv => Sys2Proof.Machine.execDecodeRfc rsv s
  | .decodeCrk rsv => Sys2Proof.Machine.execDecodeCrk rsv s
  | .cmdBadFmt op fmt rsv => Sys2Proof.Machine.execCmdBadFmt op fmt rsv s
  | .rd32Reg off => Sys2Proof.Machine.execRd32Reg off s
  | .wr32Reg off data => Sys2Proof.Machine.execWr32Reg off data s
  | .rd8Reg off => Sys2Proof.Machine.execRd8Reg off s
  | .wr8Reg off data => Sys2Proof.Machine.execWr8Reg off data s
  | .rd8In idx => Sys2Proof.Machine.execRd8In idx s
  | .rd8Out idx => Sys2Proof.Machine.execRd8Out idx s
  | .wr8In idx data => Sys2Proof.Machine.execWr8In idx data s
  | .wr8Out idx data => Sys2Proof.Machine.execWr8Out idx data s
  | .rd32In idx => Sys2Proof.Machine.execRd32In idx s
  | .rd32Out idx => Sys2Proof.Machine.execRd32Out idx s
  | .wr32In idx data => Sys2Proof.Machine.execWr32In idx data s
  | .wr32Out idx data => Sys2Proof.Machine.execWr32Out idx data s
  | .reservedSpace we sz idx data => Sys2Proof.Machine.execReservedSpace we sz idx data s
  | .badSize we sz off data => Sys2Proof.Machine.execBadSize we sz off data s

end Sys2Proof.Machine
end

