-- ==== Sys2Proof/Machine/Inputs.lean ====
section
/-! DEFINITION. What one step does with the outside world's next input (spec/00_scope.md R4, spec/20_memory.md R58,
spec/44_host_interface.md R196, spec/70_reset_and_hazards.md R251). Log 3, 4. -/

namespace Sys2Proof.Machine

/-- A wire runs as the instruction it decodes to. -/
def runWire (w : Wire) (s : State) : Host.Outcome State Fault Refusal := exec (decode w) s

/-- One input, the later ones already set aside. -/
def runInput (x : Input) (s : State) : Host.Outcome State Fault Refusal :=
  match x with
  | .wire w => runWire w s
  | .engine => .next s.engineTurn
  | .reset => .next s.resetPulse

/-- With no input left, a running command completes (R196: weak fairness) and an idle core waits. -/
def runQuiet (s : State) : Host.Outcome State Fault Refusal := .next s.engineTurn

/-- The state whose next step runs this opcode-table word: the wire stands before all other inputs (log 11). -/
def State.withTableWire (s : State) (nbits w : Nat) : State :=
  match tableWire nbits w with
  | some x => s.setInputs (.wire x :: s.inputs)
  | none => s

end Sys2Proof.Machine
end

