-- ==== Sys2Proof/Machine/Step.lean ====
section
/-! DEFINITION. One step: the outside world's next input is taken (spec/20_memory.md R58: "one host transaction at a time
and performs each one whole before the next, in the order it receives them"). The core has no program counter and
fetches nothing (spec/10_state.md R21). -/

namespace Sys2Proof.Machine

def step (s : State) : Host.Outcome State Fault Refusal :=
  match s.inputs with
  | [] => runQuiet s
  | x :: rest => runInput x (s.setInputs rest)

def State.withFetchWord (s : State) (nbits w : Nat) : State := s.withTableWire nbits w

end Sys2Proof.Machine
end

