-- ==== Sys2Proof/Machine/Pseudo.lean ====
section
/-! DEFINITION. The pseudo-instructions of host programs and their expansions (spec/30_encoding.md R78, R79). -/

namespace Sys2Proof.Machine

inductive Pseudo where
  /-- `CMD op, fmt`. -/
  | cmd (op : BitVec 1) (fmt : BitVec 2)
  /-- `ENCODE.RFC`. -/
  | encodeRfc
  /-- `ENCODE.CRK`. -/
  | encodeCrk
  /-- `DECODE.RFC`. -/
  | decodeRfc
  /-- `DECODE.CRK`. -/
  | decodeCrk
  /-- `SETFMT op, fmt`. -/
  | setFmt (op : BitVec 1) (fmt : BitVec 2)
  /-- `LOAD s`. -/
  | load (bytes : List Byte)
  /-- `WAIT`. -/
  | wait
deriving DecidableEq, Repr

/-- `RD32 off` of a register. -/
def rd32RegWire (r : Reg) : Wire := encode (.rd32Reg r.offset)

/-- `WR32 off, value` of a register. -/
def wr32RegWire (r : Reg) (w : Word) : Wire := encode (.wr32Reg r.offset w)

/-- `(fmt << 8) | (op << 4)` (R79). -/
def ctrlFields (op : BitVec 1) (fmt : BitVec 2) : Word := (fmt.setWidth 32 <<< 8) ||| (op.setWidth 32 <<< 4)

/-- `WR8 IN+i, s[i]` from index `i` on (R79). -/
def loadWires (i : Nat) : List Byte → List Wire
  | [] => []
  | b :: bs => encode (.wr8In (BitVec.ofNat 16 i) (b.setWidth 32)) :: loadWires (i + 1) bs

/-- One line of a host program (R78), or the loop of R79. -/
inductive HostOp where
  /-- One transaction. -/
  | issue (w : Wire)
  /-- `RD32 STATUS -> st`, repeated until `st[1]` = 1 (DONE). -/
  | pollDone
deriving DecidableEq, Repr

/-- The transaction that a line issues. -/
def HostOp.wire : HostOp → Wire
  | .issue w => w
  | .pollDone => rd32RegWire .status

/-- Bit 1 of the word the host has just read: `st[1]` (R79). -/
def State.readDone (t : State) : Bool :=
  match t.response with
  | .none => false
  | .read st => st.getLsbD 1
  | .written => false

/-- Whether the host issues the line again, after the answer it got. -/
def HostOp.again (op : HostOp) (t : State) : Bool :=
  match op with
  | .issue _ => false
  | .pollDone => !t.readDone

/-- The expansions (R79). -/
def Pseudo.expand : Pseudo → List HostOp
  | .cmd op fmt => [.issue (wr32RegWire .ctrl (ctrlFields op fmt ||| 1))]
  | .encodeRfc => [.issue (wr32RegWire .ctrl 0x001)]
  | .encodeCrk => [.issue (wr32RegWire .ctrl 0x101)]
  | .decodeRfc => [.issue (wr32RegWire .ctrl 0x011)]
  | .decodeCrk => [.issue (wr32RegWire .ctrl 0x111)]
  | .setFmt op fmt => [.issue (wr32RegWire .ctrl (ctrlFields op fmt))]
  | .load bytes => (loadWires 0 bytes).map .issue ++ [.issue (wr32RegWire .inLen (BitVec.ofNat 32 bytes.length))]
  | .wait => [.pollDone, .issue (rd32RegWire .status)]

/-- The engine's turn, where the schedule places one. -/
def State.turnIf (turn : Bool) (s : State) : State := if turn then s.engineTurn else s

/-- Runs a host program, the schedule saying before each transaction whether the engine has a turn (R196, log 16). It ends
when its lines are done or a transaction faults; none: the schedule ended first, and the program is still running. -/
def runHost : List Bool → List HostOp → State → Option (Host.Outcome State Fault Refusal)
  | _, [], s => some (.next s)
  | [], _ :: _, _ => none
  | turn :: turns, op :: ops, s =>
    match runWire op.wire (s.turnIf turn) with
    | .next t => runHost turns (if op.again t then op :: ops else ops) t
    | .fault r => some (.fault r)
    | .refused r => some (.refused r)

/-- Runs of host transactions, one after the other, stopping at the first fault. -/
def runWires : List Wire → State → Host.Outcome State Fault Refusal
  | [], s => .next s
  | w :: ws, s =>
    match runWire w s with
    | .next t => runWires ws t
    | .fault r => .fault r
    | .refused r => .refused r

end Sys2Proof.Machine
end

