-- ==== Sys2Proof/Safety.lean ====
section
/-! DEFINITION. What counts as a safe run and which states are legal, in the terms the claims use. -/

namespace Sys2Proof.Machine

/-- The bus map as rules R51 to R54 state it, for a buffer size `cap`: which transactions the core accepts. A command form
is a size-4 write of CTRL, which is mapped. -/
def accepts (cap : Nat) : Instr → Bool
  | .config _ _ _ => true
  | .encodeRfc _ => true
  | .encodeCrk _ => true
  | .decodeRfc _ => true
  | .decodeCrk _ => true
  | .cmdBadFmt _ _ _ => true
  | .rd32Reg off => off.toNat < 0x20 && off.toNat % 4 == 0
  | .wr32Reg off _ => off.toNat < 0x20 && off.toNat % 4 == 0
  | .rd8Reg _ => false
  | .wr8Reg _ _ => false
  | .rd8In idx => idx.toNat < cap
  | .rd8Out idx => idx.toNat < cap
  | .wr8In idx _ => idx.toNat < cap
  | .wr8Out idx _ => idx.toNat < cap
  | .rd32In idx => idx.toNat % 4 == 0 && idx.toNat + 3 < cap
  | .rd32Out idx => idx.toNat % 4 == 0 && idx.toNat + 3 < cap
  | .wr32In idx _ => idx.toNat % 4 == 0 && idx.toNat + 3 < cap
  | .wr32Out idx _ => idx.toNat % 4 == 0 && idx.toNat + 3 < cap
  | .reservedSpace _ _ _ _ => false
  | .badSize _ _ _ _ => false

/-- Whether a transaction only reads (WE = 0, R77). -/
def reads : Instr → Bool
  | .config _ _ _ => false
  | .encodeRfc _ => false
  | .encodeCrk _ => false
  | .decodeRfc _ => false
  | .decodeCrk _ => false
  | .cmdBadFmt _ _ _ => false
  | .rd32Reg _ => true
  | .wr32Reg _ _ => false
  | .rd8Reg _ => true
  | .wr8Reg _ _ => false
  | .rd8In _ => true
  | .rd8Out _ => true
  | .wr8In _ _ => false
  | .wr8Out _ _ => false
  | .rd32In _ => true
  | .rd32Out _ => true
  | .wr32In _ _ => false
  | .wr32Out _ _ => false
  | .reservedSpace we _ _ _ => !we
  | .badSize we _ _ _ => !we

/-- Whether a transaction is a START write (R193): a command word with w[0] = 1, in either spelling. -/
def starts : Instr → Bool
  | .encodeRfc _ => true
  | .encodeCrk _ => true
  | .decodeRfc _ => true
  | .decodeCrk _ => true
  | .cmdBadFmt _ _ _ => true
  | .wr32Reg off w => off == 0 && w.getLsbD 0
  | .config _ _ _ => false
  | .rd32Reg _ => false
  | .rd8Reg _ => false
  | .wr8Reg _ _ => false
  | .rd8In _ => false
  | .rd8Out _ => false
  | .wr8In _ _ => false
  | .wr8Out _ _ => false
  | .rd32In _ => false
  | .rd32Out _ => false
  | .wr32In _ _ => false
  | .wr32Out _ _ => false
  | .reservedSpace _ _ _ _ => false
  | .badSize _ _ _ _ => false

/-- An input that cannot stop the machine: every wire is a transaction the map accepts. -/
def Input.accepted (cap : Nat) : Input → Bool
  | .wire w => accepts cap (decode w)
  | .engine => true
  | .reset => true

/-- A safe run of `k` steps stops at no fault and no refusal. -/
def safeRun (k : Nat) (s : State) : Prop := ∃ t, Sys2Proof.core.run k s = .next t

/-- The constraint on BUF_CAP (R6), as CAPACITY shows it (R34). -/
abbrev State.sized (s : State) : Prop := 8 ≤ s.capacity ∧ s.capacity ≤ 65536

/-- The buffers are in canonical form and inside BUF_CAP, and the defined OUT_BUF bytes are exactly 0 to OUT_LEN-1
(R35, R36). -/
abbrev State.buffersLegal (s : State) : Prop :=
  s.inBuf.wf ∧ (∀ c ∈ s.inBuf, c.1 < s.capacity) ∧
    s.outBuf.map Prod.fst = List.range s.outLen.toNat ∧ s.outLen.toNat ≤ s.capacity

/-- The completion record is clear, as START and reset leave it (R193, R250). -/
abbrev State.recordClear (s : State) : Prop :=
  s.err = 0 ∧ s.outLen = 0 ∧ s.errByte = 0 ∧ s.errPos = 0 ∧ s.errCount = 0

/-- STATUS while a command runs, and before the first completion (R27, R193, R250). -/
abbrev State.statusLegal (s : State) : Prop :=
  (s.busy = true → s.done = false) ∧ (s.done = false → s.recordClear)

/-- The completion record is that of one outcome of R224, with the counts its kind allows (R33, R124, R125, R165,
R225, R226); with an error there is no data (R28). -/
abbrev State.recordLegal (s : State) : Prop :=
  (s.err = 0 ∧ s.errByte = 0 ∧ s.errPos = 0 ∧ s.errCount = 0) ∨
  (s.outLen = 0 ∧
    ((s.err = 1 ∧ s.errByte = 0 ∧ s.errPos = 0 ∧ (s.errCount = 2 ∨ s.errCount = 3)) ∨
     (s.err = 3 ∧ s.errByte = 0 ∧ s.errPos = 0 ∧ s.errCount.toNat % 8 ≠ 0 ∧ s.errCount.toNat ≤ s.capacity) ∨
     (s.err = 4 ∧ s.errByte = 0 ∧ s.errPos = 0 ∧
       (6 < s.errCount.toNat ∨ s.errCount = 2 ∨ s.errCount = 5 ∨ s.errCount = 7) ∧
       s.errCount.toNat ≤ s.capacity) ∨
     (s.err = 5 ∧ (decRfc s.errByte = none ∨ decCrk s.errByte = none) ∧ 1 ≤ s.errPos.toNat ∧
       s.errPos.toNat ≤ s.capacity ∧ s.errCount = 0) ∨
     (s.err = 6 ∧ s.errByte = 0 ∧ s.errPos = 0 ∧ s.capacity < s.errCount.toNat)))

/-- The invariant of the machine: what every state that a run reaches satisfies. -/
abbrev State.Legal (s : State) : Prop := s.sized ∧ s.buffersLegal ∧ s.statusLegal ∧ s.recordLegal

/-- What the host can read of a completed command (R197): the code, the context, and `out` in OUT_BUF[0 .. OUT_LEN-1],
every other byte unspecified. -/
def State.shows (s : State) (code : BitVec 4) (byte : Byte) (pos count : Word) (out : List Byte) : Prop :=
  s.busy = false ∧ s.done = true ∧ s.err = code ∧ s.errByte = byte ∧ s.errPos = pos ∧ s.errCount = count ∧
    s.outLen = BitVec.ofNat 32 out.length ∧ ∀ i, s.outBuf.read? i = out[i]?

/-- Two states between which only the host's answer and the draw counter differ: what a read may change (R59). -/
def State.sameButAnswer (s t : State) : Prop := t = { s with response := t.response, draws := t.draws }

/-- The ASCII case of a letter flipped; every other byte as it is (R109). -/
def flipCase (c : Byte) : Byte :=
  if 0x41 ≤ c.toNat ∧ c.toNat ≤ 0x5A then c + 0x20
  else if 0x61 ≤ c.toNat ∧ c.toNat ≤ 0x7A then c - 0x20
  else c

/-- `lowercase` on one byte (R10, R173). -/
def lowerCase (c : Byte) : Byte := if 0x41 ≤ c.toNat ∧ c.toNat ≤ 0x5A then c + 0x20 else c

/-- `uppercase` on one byte (R10, R173). -/
def upperCase (c : Byte) : Byte := if 0x61 ≤ c.toNat ∧ c.toNat ≤ 0x7A then c - 0x20 else c

/-- Equal results, or errors of the same kind, position and count whose byte differs in ASCII case only (R173). -/
def sameUpToCase : Result → Result → Prop
  | .ok a, .ok b => a = b
  | .err k c, .err k' c' =>
    k = k' ∧ c.pos = c'.pos ∧ c.count = c'.count ∧ (c.byte = c'.byte ∨ c.byte = flipCase c'.byte)
  | .ok _, .err _ _ => False
  | .err _ _, .ok _ => False

/-- A Crockford alias replaced by the digit it stands for (R173): `O`/`o` by `0`, `I`/`i`/`L`/`l` by `1`. -/
def unalias (c : Byte) : Byte :=
  if c = 0x4F ∨ c = 0x6F then 0x30
  else if c = 0x49 ∨ c = 0x69 ∨ c = 0x4C ∨ c = 0x6C then 0x31
  else c

end Sys2Proof.Machine
end

