-- ==== Sys2Proof/Certificates/Slice0/Obligations.lean ====
section
/-! DEFINITION. The statements for the provers. Each docstring names the rules of spec/ it formalises; a clause that rests
on the model's own choice names its log entry. -/

open Sys2Proof Sys2Proof.Machine

/-! ## Decoding and encoding -/

/-- Decode and encode agree on every well-formed instruction, with every operand (R70, R77, opcode_table.json). -/
def Obligations.DecodeOfEncodeIsTheInstruction : Prop :=
  ∀ i : Instr, i.wf = true → decode (encode i) = i

/-- Every wire decodes to a well-formed instruction, and encoding gives the wire back: no bit of a word is dropped. A read
carries no data lanes (R77). -/
def Obligations.EncodeOfDecodeIsTheWire : Prop :=
  ∀ w : Wire, (decode w).wf = true ∧ (w.canonical = true → encode (decode w) = w)

/-- R74: the form of a command word is decided by w[0], w[4] and w[9:8], and every word falls in exactly one row. -/
def Obligations.CommandWordFallsInExactlyOneForm : Prop :=
  ∀ w : Word,
    (ctrlRows.filter (·.hit w)).map Row.mnemonic = [(decode (.ctrl w)).mnemonic] ∧
    (w.getLsbD 0 = false →
      decode (.ctrl w) = .config (w.extractLsb' 4 1) (w.extractLsb' 8 2) (ctrlReserved w)) ∧
    (w.getLsbD 0 = true → w.extractLsb' 4 1 = 0 → w.extractLsb' 8 2 = 0 →
      decode (.ctrl w) = .encodeRfc (ctrlReserved w)) ∧
    (w.getLsbD 0 = true → w.extractLsb' 4 1 = 0 → w.extractLsb' 8 2 = 1 →
      decode (.ctrl w) = .encodeCrk (ctrlReserved w)) ∧
    (w.getLsbD 0 = true → w.extractLsb' 4 1 = 1 → w.extractLsb' 8 2 = 0 →
      decode (.ctrl w) = .decodeRfc (ctrlReserved w)) ∧
    (w.getLsbD 0 = true → w.extractLsb' 4 1 = 1 → w.extractLsb' 8 2 = 1 →
      decode (.ctrl w) = .decodeCrk (ctrlReserved w)) ∧
    (w.getLsbD 0 = true → w.getLsbD 9 = true →
      decode (.ctrl w) = .cmdBadFmt (w.extractLsb' 4 1) (w.extractLsb' 8 2) (ctrlReserved w))

/-- The fourteen BUS rows of opcode_table.json partition the 21-bit descriptors (R77), and the decoder names the one row a
descriptor falls in. -/
def Obligations.DescriptorFallsInExactlyOneRow : Prop :=
  ∀ (d : BitVec 21) (data : Word),
    (busRows.filter (·.hit d)).map Row.mnemonic = [(decode (.bus d data)).mnemonic]

/-- Words written out from R74 and R77: one of each command form, and the descriptors of spec/95_test_vectors.md P1 and P2
and one of each remaining row. -/
def Obligations.SpecWordsDecodeToTheirInstructions : Prop :=
  decode (.ctrl 0x00000310) = .config 1 3 ⟨0, 0, 0⟩ ∧
  decode (.ctrl 0x00000001) = .encodeRfc ⟨0, 0, 0⟩ ∧
  decode (.ctrl 0x00000101) = .encodeCrk ⟨0, 0, 0⟩ ∧
  decode (.ctrl 0x00000011) = .decodeRfc ⟨0, 0, 0⟩ ∧
  decode (.ctrl 0x00000111) = .decodeCrk ⟨0, 0, 0⟩ ∧
  decode (.ctrl 0x00000211) = .cmdBadFmt 1 2 ⟨0, 0, 0⟩ ∧
  decode (.bus 0x080004 0) = .rd32Reg 0x0004 ∧
  decode (.bus 0x180008 6) = .wr32Reg 0x0008 6 ∧
  decode (.bus 0x000004 0) = .rd8Reg 0x0004 ∧
  decode (.bus 0x100000 1) = .wr8Reg 0x0000 1 ∧
  decode (.bus 0x010003 0) = .rd8In 0x0003 ∧
  decode (.bus 0x020004 0) = .rd8Out 0x0004 ∧
  decode (.bus 0x110004 0x61) = .wr8In 0x0004 0x61 ∧
  decode (.bus 0x120000 0x41) = .wr8Out 0x0000 0x41 ∧
  decode (.bus 0x090004 0) = .rd32In 0x0004 ∧
  decode (.bus 0x0A0008 0) = .rd32Out 0x0008 ∧
  decode (.bus 0x190000 0x626F6F66) = .wr32In 0x0000 0x626F6F66 ∧
  decode (.bus 0x1A0000 7) = .wr32Out 0x0000 7 ∧
  decode (.bus 0x1B1234 7) = .reservedSpace true 2 0x1234 7 ∧
  decode (.bus 0x040004 0) = .badSize false 1 0x00004 0

/-! ## The step -/

/-- A step takes the outside world's next input (log 3): a wire runs as the instruction it decodes to, the engine has its
turn, reset is pulsed; with nothing listed the engine has its turn (log 4). -/
def Obligations.StepRunsTheDecodedInstruction : Prop :=
  ∀ (s : State) (rest : List Input),
    (∀ w, s.inputs = .wire w :: rest → step s = exec (decode w) { s with inputs := rest }) ∧
    (s.inputs = .engine :: rest → step s = .next (State.engineTurn { s with inputs := rest })) ∧
    (s.inputs = .reset :: rest → step s = .next (State.resetPulse { s with inputs := rest })) ∧
    (s.inputs = [] → step s = .next s.engineTurn)

/-- An opcode-table word placed before all other inputs is what the very next step runs (log 11). -/
def Obligations.FetchedTableWordRunsNext : Prop :=
  ∀ (s : State) (nbits w : Nat) (i : Instr), decodeTableWord nbits w = some i →
    step (s.withFetchWord nbits w) = exec i s

/-! ## Reset -/

/-- R250, R251: what reset leaves, from any state, a running command's too. An unspecified byte is one that no definite
value is listed for; an IN_BUF byte then holds the free value of this reset (log 7), an OUT_BUF byte a draw (log 8), and
the datapath free values (log 9). -/
def Obligations.ResetLeavesTheStateOfRule250 : Prop :=
  ∀ s : State,
    let t := s.resetPulse
    (∀ r : Reg, r ≠ .capacity → t.readReg r = 0) ∧
    t.op = 0 ∧ t.fmt = 0 ∧ t.busy = false ∧ t.done = false ∧ t.err = 0 ∧
    t.readReg .capacity = s.readReg .capacity ∧
    (∀ i, t.inBuf.read? i = none ∧ t.inByte i = Config.inBufInit (s.resets + 1) i) ∧
    (∀ k i, t.outBuf.read? i = none ∧ t.outByte k i = Config.outBufDraw k) ∧
    t.phase = .idle ∧ t.engineTurn = t ∧
    t.datapath = ⟨Config.accDraw s.draws, Config.nbitsDraw s.draws, Config.idxDraw s.draws, Config.oidxDraw s.draws,
      Config.mDraw s.draws⟩

/-- The core right after power-on reset: the values R250 gives, CAPACITY reading BUF_CAP (R34, log 6), a BUF_CAP within
R6's bounds, no byte of either buffer definite. -/
def Obligations.PowerOnStateIsThatOfReset : Prop :=
  (∀ r : Reg, r ≠ .capacity → State.reset.readReg r = 0) ∧
  State.reset.readReg .capacity = BitVec.ofNat 32 Config.bufCap ∧
  8 ≤ State.reset.capacity ∧ State.reset.capacity ≤ 65536 ∧
  (∀ i, State.reset.inBuf.read? i = none ∧ State.reset.outBuf.read? i = none) ∧
  State.reset.phase = .idle

/-! ## Registers -/

/-- R191, R23, R26, R31: a size-4 read of each register returns its layout and changes nothing but the answer. -/
def Obligations.RegisterReadsReturnTheirLayouts : Prop :=
  ∀ s : State,
    exec (.rd32Reg 0x00) s = .next { s with response := .read (0#22 ++ s.fmt ++ 0#3 ++ s.op ++ 0#3 ++ 0#1) } ∧
    exec (.rd32Reg 0x04) s =
      .next { s with response := .read (0#20 ++ s.err ++ 0#6 ++ BitVec.ofBool s.done ++ BitVec.ofBool s.busy) } ∧
    exec (.rd32Reg 0x08) s = .next { s with response := .read s.inLen } ∧
    exec (.rd32Reg 0x0C) s = .next { s with response := .read s.outLen } ∧
    exec (.rd32Reg 0x10) s = .next { s with response := .read (0#24 ++ s.errByte) } ∧
    exec (.rd32Reg 0x14) s = .next { s with response := .read s.errPos } ∧
    exec (.rd32Reg 0x18) s = .next { s with response := .read s.errCount } ∧
    exec (.rd32Reg 0x1C) s = .next { s with response := .read (BitVec.ofNat 32 s.capacity) }

/-- R191's corner case and R260: while a command runs, STATUS reads 1 and the result registers read 0, in every legal
state. -/
def Obligations.BusyReadsShowNoResult : Prop :=
  ∀ s : State, s.Legal → s.busy = true →
    exec (.rd32Reg 0x04) s = .next { s with response := .read 1 } ∧
    exec (.rd32Reg 0x0C) s = .next { s with response := .read 0 } ∧
    exec (.rd32Reg 0x10) s = .next { s with response := .read 0 } ∧
    exec (.rd32Reg 0x14) s = .next { s with response := .read 0 } ∧
    exec (.rd32Reg 0x18) s = .next { s with response := .read 0 }

/-- R192, R24, R29: a size-4 write of each register. A START write's whole effect is CommandStartClearsTheRecord's. -/
def Obligations.RegisterWritesTakeEffectOnlyWhileIdle : Prop :=
  ∀ (s : State) (w : Word),
    (s.busy = false → w.getLsbD 0 = false → exec (.wr32Reg 0x00 w) s =
      .next { s with op := w.extractLsb' 4 1, fmt := w.extractLsb' 8 2, response := .written }) ∧
    (s.busy = false → w.getLsbD 0 = true → exec (.wr32Reg 0x00 w) s =
      .next { (State.startCommand { s with op := w.extractLsb' 4 1, fmt := w.extractLsb' 8 2 }) with
        response := .written }) ∧
    (s.busy = false → exec (.wr32Reg 0x08 w) s = .next { s with inLen := w, response := .written }) ∧
    (s.busy = true → exec (.wr32Reg 0x00 w) s = .next { s with response := .written }) ∧
    (s.busy = true → exec (.wr32Reg 0x08 w) s = .next { s with response := .written }) ∧
    (∀ o ∈ [0x04#16, 0x0C#16, 0x10#16, 0x14#16, 0x18#16, 0x1C#16],
      exec (.wr32Reg o w) s = .next { s with response := .written })

/-- R70, R79: a command word is the data of a size-4 write to CTRL. The two spellings of the transaction (log 10) mean the
same in every state. -/
def Obligations.CommandWordMeansItsWriteToCtrl : Prop :=
  ∀ (w : Word) (s : State), exec (.wr32Reg 0x00 w) s = exec (decode (.ctrl w)) s

/-- R34: CAPACITY is a constant. No step changes it, a reset pulse neither, and a write to it is accepted and ignored. -/
def Obligations.CapacityNeverChanges : Prop :=
  (∀ s t : State, step s = .next t → t.capacity = s.capacity) ∧
  (∀ (s : State) (w : Word), exec (.wr32Reg 0x1C w) s = .next { s with response := .written }) ∧
  (∀ s : State, exec (.rd32Reg 0x1C) s = .next { s with response := .read (BitVec.ofNat 32 s.capacity) })

/-! ## Commands: issue -/

/-- R193, R146, R147, R170, R171, R206: a START accepted while idle stores OP and FMT, clears STATUS but for BUSY, OUT_LEN,
the error registers and OUT_BUF, and sets the engine running; nothing else of the core changes. The datapath is a free
value from here on (log 9). -/
def Obligations.CommandStartClearsTheRecord : Prop :=
  ∀ (s : State) (rsv : Reserved), s.busy = false →
    let started (op : BitVec 1) (fmt : BitVec 2) : State :=
      { s with
        op := op, fmt := fmt, phase := .run, done := false, err := 0, outLen := 0, errByte := 0, errPos := 0,
        errCount := 0, outBuf := [], datapath := Datapath.unspecified s.draws, draws := s.draws + 1,
        response := .written }
    exec (.encodeRfc rsv) s = .next (started 0 0) ∧
    exec (.encodeCrk rsv) s = .next (started 0 1) ∧
    exec (.decodeRfc rsv) s = .next (started 1 0) ∧
    exec (.decodeCrk rsv) s = .next (started 1 1) ∧
    (∀ op fmt, exec (.cmdBadFmt op fmt rsv) s = .next (started op fmt))

/-- R205: CONFIG stores OP and FMT while idle, any FMT, and changes nothing else; while BUSY it changes nothing. -/
def Obligations.ConfigOnlyStoresOpAndFmt : Prop :=
  ∀ (s : State) (op : BitVec 1) (fmt : BitVec 2) (rsv : Reserved),
    (s.busy = false → exec (.config op fmt rsv) s = .next { s with op := op, fmt := fmt, response := .written }) ∧
    (s.busy = true → exec (.config op fmt rsv) s = .next { s with response := .written })

/-- R194: while BUSY every write to CTRL, IN_LEN or IN_BUF is accepted and has no effect; a second START is lost, not
queued; reads are answered as when idle, with IN_BUF's fixed unknown values (log 7), and OUT_BUF's draws of which a byte
read uses one and a word read four (log 8). -/
def Obligations.WritesWhileBusyHaveNoEffect : Prop :=
  ∀ s : State, s.busy = true →
    (∀ op fmt rsv, exec (.config op fmt rsv) s = .next { s with response := .written }) ∧
    (∀ rsv, exec (.encodeRfc rsv) s = .next { s with response := .written } ∧
      exec (.encodeCrk rsv) s = .next { s with response := .written } ∧
      exec (.decodeRfc rsv) s = .next { s with response := .written } ∧
      exec (.decodeCrk rsv) s = .next { s with response := .written }) ∧
    (∀ op fmt rsv, exec (.cmdBadFmt op fmt rsv) s = .next { s with response := .written }) ∧
    (∀ w, exec (.wr32Reg 0x00 w) s = .next { s with response := .written } ∧
      exec (.wr32Reg 0x08 w) s = .next { s with response := .written }) ∧
    (∀ idx w, idx.toNat < s.capacity → exec (.wr8In idx w) s = .next { s with response := .written }) ∧
    (∀ idx w, idx.toNat % 4 = 0 → idx.toNat + 3 < s.capacity →
      exec (.wr32In idx w) s = .next { s with response := .written }) ∧
    (∀ r : Reg, exec (.rd32Reg r.offset) s = .next { s with response := .read (s.readReg r) }) ∧
    (∀ idx, idx.toNat < s.capacity →
      exec (.rd8In idx) s = .next { s with response := .read ((s.inByte idx.toNat).setWidth 32) } ∧
      exec (.rd8Out idx) s = .next { s with
        response := .read ((s.outByte s.draws idx.toNat).setWidth 32), draws := s.draws + 1 }) ∧
    (∀ idx, idx.toNat % 4 = 0 → idx.toNat + 3 < s.capacity →
      exec (.rd32In idx) s = .next { s with response := .read (s.inWord idx.toNat) } ∧
      exec (.rd32Out idx) s = .next { s with
        response := .read (s.outWord idx.toNat), draws := s.draws + 4 })

/-! ## Commands: completion -/

/-- R197, R196: an engine turn of a running command publishes its outcome in one action and touches no operand; an idle
engine does nothing. The last clauses are about the model's own fields: the answer (log 5), the inputs (log 3) and the
reset count (log 7) stay, one draw is used (log 8) and the datapath takes free values (log 9). -/
def Obligations.CompletionPublishesTheOutcome : Prop :=
  ∀ s : State,
    (s.busy = false → s.engineTurn = s) ∧
    (∀ bytes, s.busy = true → s.outcome = .ok bytes →
      s.engineTurn.shows 0 0 0 0 bytes) ∧
    (∀ k c, s.busy = true → s.outcome = .err k c →
      s.engineTurn.shows k.code c.byte c.pos c.count []) ∧
    s.engineTurn.op = s.op ∧ s.engineTurn.fmt = s.fmt ∧ s.engineTurn.inLen = s.inLen ∧
    s.engineTurn.inBuf = s.inBuf ∧ s.engineTurn.capacity = s.capacity ∧ s.engineTurn.response = s.response ∧
    s.engineTurn.inputs = s.inputs ∧ s.engineTurn.resets = s.resets ∧
    (s.busy = true → s.engineTurn.draws = s.draws + 1 ∧ s.engineTurn.datapath = Datapath.unspecified s.draws)

/-- R230: a command reports exactly one outcome, the first of the list that applies. The trailing `=` count `p` is R123's;
the lowest-index illegal byte is one that the table does not know, every byte before it being known or, in Crockford, a
skipped hyphen. -/
def Obligations.CommandReportsTheFirstOutcomeThatApplies : Prop :=
  ∀ (cap : Nat) (op : BitVec 1) (fmt : BitVec 2) (n : Nat) (inBuf : Nat → Byte),
    let t := (List.range n).map inBuf
    let p := trailingEq t
    let f : Format := if fmt = 0 then .rfc else .crk
    let m := if fmt = 0 then n - p else n
    let badPad := 6 < p ∨ p = 2 ∨ p = 5 ∨ p = 7
    (fmt.getLsbD 1 = true → runCommand cap op fmt n inBuf = .failCount .invalidOption fmt.toNat) ∧
    (fmt.getLsbD 1 = false → cap < n → runCommand cap op fmt n inBuf = .failCount .capacityExceeded n) ∧
    (fmt.getLsbD 1 = false → n ≤ cap → op = 0 → cap < encLen f n →
      runCommand cap op fmt n inBuf = .failCount .capacityExceeded (encLen f n)) ∧
    (fmt.getLsbD 1 = false → n ≤ cap → op = 0 → encLen f n ≤ cap →
      runCommand cap op fmt n inBuf = .ok (encodeText f t)) ∧
    (fmt.getLsbD 1 = false → n ≤ cap → op = 1 → n = 0 → runCommand cap op fmt n inBuf = .ok []) ∧
    (fmt = 0 → n ≤ cap → op = 1 → n % 8 ≠ 0 →
      runCommand cap op fmt n inBuf = .failCount .invalidLength n) ∧
    (fmt = 0 → n ≤ cap → op = 1 → n % 8 = 0 → badPad →
      runCommand cap op fmt n inBuf = .failCount .invalidPadding p) ∧
    (fmt.getLsbD 1 = false → n ≤ cap → op = 1 → (fmt = 0 → n % 8 = 0 ∧ ¬badPad) →
      ∀ i, i < m → decMap f (inBuf i) = none → skips f (inBuf i) = false →
        (∀ j, j < i → (decMap f (inBuf j)).isSome = true ∨ skips f (inBuf j) = true) →
        runCommand cap op fmt n inBuf = .failByte (inBuf i) (i + 1)) ∧
    (fmt.getLsbD 1 = false → n ≤ cap → op = 1 → (fmt = 0 → n % 8 = 0 ∧ ¬badPad) →
      (∀ j, j < m → (decMap f (inBuf j)).isSome = true ∨ skips f (inBuf j) = true) →
        ∃ bytes, runCommand cap op fmt n inBuf = .ok bytes ∧ decodeText f t = .ok bytes)

/-- R146: ENCODE.RFC, from its START to what it shows at completion. -/
def Obligations.EncodeRfcShowsItsResult : Prop :=
  ∀ (s : State) (rsv : Reserved), s.busy = false →
    ∃ t, exec (.encodeRfc rsv) s = .next t ∧ t.busy = true ∧
      let n := s.inLen.toNat
      (s.capacity < n → t.engineTurn.shows 6 0 0 s.inLen []) ∧
      (n ≤ s.capacity → s.capacity < 8 * ((n + 4) / 5) →
        t.engineTurn.shows 6 0 0 (BitVec.ofNat 32 (8 * ((n + 4) / 5))) []) ∧
      (n ≤ s.capacity → 8 * ((n + 4) / 5) ≤ s.capacity →
        t.engineTurn.shows 0 0 0 0 (encodeText .rfc ((List.range n).map s.inByte)))

/-- R147: ENCODE.CRK, from its START to what it shows at completion. -/
def Obligations.EncodeCrkShowsItsResult : Prop :=
  ∀ (s : State) (rsv : Reserved), s.busy = false →
    ∃ t, exec (.encodeCrk rsv) s = .next t ∧ t.busy = true ∧
      let n := s.inLen.toNat
      (s.capacity < n → t.engineTurn.shows 6 0 0 s.inLen []) ∧
      (n ≤ s.capacity → s.capacity < (8 * n + 4) / 5 →
        t.engineTurn.shows 6 0 0 (BitVec.ofNat 32 ((8 * n + 4) / 5)) []) ∧
      (n ≤ s.capacity → (8 * n + 4) / 5 ≤ s.capacity →
        t.engineTurn.shows 0 0 0 0 (encodeText .crk ((List.range n).map s.inByte)))

/-- R170: DECODE.RFC, from its START to what it shows at completion. -/
def Obligations.DecodeRfcShowsItsResult : Prop :=
  ∀ (s : State) (rsv : Reserved), s.busy = false →
    ∃ t, exec (.decodeRfc rsv) s = .next t ∧ t.busy = true ∧
      let n := s.inLen.toNat
      let text := (List.range n).map s.inByte
      (s.capacity < n → t.engineTurn.shows 6 0 0 s.inLen []) ∧
      (∀ bytes, n ≤ s.capacity → decodeText .rfc text = .ok bytes → t.engineTurn.shows 0 0 0 0 bytes) ∧
      (∀ k c, n ≤ s.capacity → decodeText .rfc text = .err k c →
        t.engineTurn.shows k.code c.byte c.pos c.count [] ∧
          (k = .invalidLength ∨ k = .invalidPadding ∨ k = .illegalCharacter))

/-- R171: DECODE.CRK, from its START to what it shows at completion; never InvalidLength or InvalidPadding. -/
def Obligations.DecodeCrkShowsItsResult : Prop :=
  ∀ (s : State) (rsv : Reserved), s.busy = false →
    ∃ t, exec (.decodeCrk rsv) s = .next t ∧ t.busy = true ∧
      let n := s.inLen.toNat
      let text := (List.range n).map s.inByte
      (s.capacity < n → t.engineTurn.shows 6 0 0 s.inLen []) ∧
      (∀ bytes, n ≤ s.capacity → decodeText .crk text = .ok bytes → t.engineTurn.shows 0 0 0 0 bytes) ∧
      (∀ k c, n ≤ s.capacity → decodeText .crk text = .err k c →
        t.engineTurn.shows k.code c.byte c.pos c.count [] ∧ k = .illegalCharacter)

/-- R206, R226: a command with FMT 0b10 or 0b11 completes with InvalidOption whatever IN_LEN and IN_BUF are. -/
def Obligations.ReservedFormatCompletesWithInvalidOption : Prop :=
  ∀ (s : State) (op : BitVec 1) (fmt : BitVec 2) (rsv : Reserved), s.busy = false → fmt.getLsbD 1 = true →
    ∃ t, exec (.cmdBadFmt op fmt rsv) s = .next t ∧ t.busy = true ∧
      t.engineTurn.shows 1 0 0 (fmt.setWidth 32) []

/-- R222, R76: no command has the outcome InvalidArgument, and no step makes STATUS.ERR 2 or a code from 7 on. -/
def Obligations.ReservedErrorCodesAreNeverProduced : Prop :=
  (∀ cap op fmt n inBuf ctx, runCommand cap op fmt n inBuf ≠ .err .invalidArgument ctx) ∧
  (∀ s t : State, step s = .next t → s.err ≠ 2 → s.err.toNat < 7 → t.err ≠ 2 ∧ t.err.toNat < 7)

/-- R195, R254: a command's outcome is a function of BUF_CAP, OP, FMT, IN_LEN and IN_BUF[0 .. IN_LEN-1] alone, where a byte
never written since reset counts with its fixed unknown value; with a reserved FMT not even of those bytes. -/
def Obligations.OutcomeDependsOnlyOnTheOperands : Prop :=
  (∀ s t : State, s.capacity = t.capacity → s.op = t.op → s.fmt = t.fmt → s.inLen = t.inLen →
    (∀ i, i < s.inLen.toNat → s.inByte i = t.inByte i) → s.outcome = t.outcome) ∧
  (∀ s t : State, s.fmt = t.fmt → s.fmt.getLsbD 1 = true → s.outcome = t.outcome)

/-- R65, R38: no sequence of host transactions during a command changes what it publishes; the answer, the draw counter
and the free datapath values are the model's own (log 5, 8, 9). -/
def Obligations.OperandsAreFrozenWhileBusy : Prop :=
  ∀ (ws : List Wire) (s t : State), s.busy = true → runWires ws s = .next t →
    t.busy = true ∧ t.outcome = s.outcome ∧
    t.engineTurn = { s.engineTurn with
      response := t.response, draws := t.draws + 1, datapath := Datapath.unspecified t.draws }

/-- R260, R62: after completion the host reads the result of the command that completed: STATUS shows DONE, OUT_LEN the
length, and OUT_BUF[i] byte `i` of the outcome. A byte read uses one draw, needed or not: the model's choice (log 8). -/
def Obligations.ResultIsReadableOnceDone : Prop :=
  ∀ (s : State) (bytes : List Byte), s.busy = true → s.outcome = .ok bytes →
    exec (.rd32Reg 0x04) s.engineTurn = .next { s.engineTurn with response := .read 2 } ∧
    exec (.rd32Reg 0x0C) s.engineTurn =
      .next { s.engineTurn with response := .read (BitVec.ofNat 32 bytes.length) } ∧
    (∀ (idx : BitVec 16) (h : idx.toNat < bytes.length), idx.toNat < s.capacity →
      exec (.rd8Out idx) s.engineTurn = .next { s.engineTurn with
        response := .read (bytes[idx.toNat].setWidth 32), draws := s.engineTurn.draws + 1 })

/-! ## Buffers -/

/-- R198: a size-1 read of a buffer byte. An IN_BUF byte never written since reset returns its fixed unknown value (log 7),
an unspecified OUT_BUF byte a fresh draw (log 8); in a legal state that is every OUT_BUF byte while BUSY and every index
from OUT_LEN on. -/
def Obligations.ByteReadReturnsTheByteOrADraw : Prop :=
  ∀ (s : State) (idx : BitVec 16), idx.toNat < s.capacity →
    exec (.rd8In idx) s = .next { s with
      response := .read (((s.inBuf.read? idx.toNat).getD (Config.inBufInit s.resets idx.toNat)).setWidth 32) } ∧
    exec (.rd8Out idx) s = .next { s with
      response := .read (((s.outBuf.read? idx.toNat).getD (Config.outBufDraw s.draws)).setWidth 32),
      draws := s.draws + 1 } ∧
    (s.Legal → (s.busy = true ∨ s.outLen.toNat ≤ idx.toNat) →
      exec (.rd8Out idx) s = .next { s with
        response := .read ((Config.outBufDraw s.draws).setWidth 32), draws := s.draws + 1 })

/-- R199: a size-1 write of a buffer byte: IN_BUF[i] takes data bits 7:0 while idle, every other IN_BUF byte reads as
before, nothing else of the core changes; a write while BUSY or to OUT_BUF is accepted and ignored. -/
def Obligations.ByteWriteStoresExactlyThatByte : Prop :=
  ∀ (s : State) (idx : BitVec 16) (w : Word), idx.toNat < s.capacity →
    (s.busy = false → ∃ t, exec (.wr8In idx w) s = .next t ∧
      t = { s with inBuf := t.inBuf, response := .written } ∧
      t.inBuf.read? idx.toNat = some (w.extractLsb' 0 8) ∧
      ∀ a, a ≠ idx.toNat → t.inBuf.read? a = s.inBuf.read? a) ∧
    (s.busy = true → exec (.wr8In idx w) s = .next { s with response := .written }) ∧
    exec (.wr8Out idx w) s = .next { s with response := .written }

/-- R200, R55: a size-4 read of a buffer word is little-endian; each unspecified OUT_BUF byte is drawn on its own (free
values as in log 7 and log 8). -/
def Obligations.WordReadIsLittleEndian : Prop :=
  ∀ (s : State) (idx : BitVec 16), idx.toNat % 4 = 0 → idx.toNat + 3 < s.capacity →
    let i := idx.toNat
    let x (k : Nat) : Byte := (s.inBuf.read? (i + k)).getD (Config.inBufInit s.resets (i + k))
    let y (k : Nat) : Byte := (s.outBuf.read? (i + k)).getD (Config.outBufDraw (s.draws + k))
    exec (.rd32In idx) s = .next { s with response := .read (x 3 ++ x 2 ++ x 1 ++ x 0) } ∧
    exec (.rd32Out idx) s = .next { s with response := .read (y 3 ++ y 2 ++ y 1 ++ y 0), draws := s.draws + 4 }

/-- R201: a size-4 write of a buffer word: IN_BUF[i .. i+3] take the four lanes while idle, every other IN_BUF byte reads as
before, nothing else of the core changes; a write while BUSY or to OUT_BUF is accepted and ignored. -/
def Obligations.WordWriteStoresExactlyItsFourBytes : Prop :=
  ∀ (s : State) (idx : BitVec 16) (w : Word), idx.toNat % 4 = 0 → idx.toNat + 3 < s.capacity →
    let i := idx.toNat
    (s.busy = false → ∃ t, exec (.wr32In idx w) s = .next t ∧
      t = { s with inBuf := t.inBuf, response := .written } ∧
      t.inBuf.read? i = some (w.extractLsb' 0 8) ∧ t.inBuf.read? (i + 1) = some (w.extractLsb' 8 8) ∧
      t.inBuf.read? (i + 2) = some (w.extractLsb' 16 8) ∧ t.inBuf.read? (i + 3) = some (w.extractLsb' 24 8) ∧
      ∀ a, a < i ∨ i + 3 < a → t.inBuf.read? a = s.inBuf.read? a) ∧
    (s.busy = true → exec (.wr32In idx w) s = .next { s with response := .written }) ∧
    exec (.wr32Out idx w) s = .next { s with response := .written }

/-- R57: a byte of a buffer reads as the last accepted write covering it left it, whether that write had size 1 or 4, and a
size-4 read returns the four bytes each as a size-1 read would. -/
def Obligations.MixedWidthAccessesAgree : Prop :=
  ∀ (s : State) (idx : BitVec 16) (w : Word), s.busy = false → idx.toNat % 4 = 0 → idx.toNat + 3 < s.capacity →
    (∃ t, exec (.wr32In idx w) s = .next t ∧
      exec (.rd32In idx) t = .next { t with response := .read w } ∧
      ∀ k : Nat, k < 4 →
        exec (.rd8In (idx + BitVec.ofNat 16 k)) t =
          .next { t with response := .read ((w.extractLsb' (8 * k) 8).setWidth 32) }) ∧
    (∀ (k : Nat) (b : Word), k < 4 → ∃ t, exec (.wr8In (idx + BitVec.ofNat 16 k) b) s = .next t ∧
      ∃ v : Word, exec (.rd32In idx) t = .next { t with response := .read v } ∧
        ∀ j : Nat, j < 4 →
          v.extractLsb' (8 * j) 8 = if j = k then b.extractLsb' 0 8 else s.inByte (idx.toNat + j))

/-- R59: a read changes nothing but the answer (log 5) and the draw counter (log 8), so two reads of the same place with
only reads between them start from states of which the later differs in no more; such reads answer the same, but for
unspecified OUT_BUF bytes, which are drawn afresh: a defined OUT_BUF byte, and a word of four defined bytes, reads the same
again. -/
def Obligations.ReadsHaveNoSideEffects : Prop :=
  (∀ (i : Instr) (s t : State), reads i = true → exec i s = .next t → s.sameButAnswer t) ∧
  (∀ (i : Instr) (s s' t u : State), reads i = true → (∀ idx, i ≠ .rd8Out idx ∧ i ≠ .rd32Out idx) →
    s.sameButAnswer s' → exec i s = .next t → exec i s' = .next u → u.response = t.response) ∧
  (∀ (idx : BitVec 16) (s s' t u : State), (s.outBuf.read? idx.toNat).isSome = true →
    s.sameButAnswer s' → exec (.rd8Out idx) s = .next t → exec (.rd8Out idx) s' = .next u → u.response = t.response) ∧
  (∀ (idx : BitVec 16) (s s' t u : State), (∀ k, k < 4 → (s.outBuf.read? (idx.toNat + k)).isSome = true) →
    s.sameButAnswer s' → exec (.rd32Out idx) s = .next t → exec (.rd32Out idx) s' = .next u → u.response = t.response)

/-- R35, R250: a step leaves IN_BUF and every unwritten byte's fixed value (the reset count, log 7) alone, unless it is an
accepted IN_BUF write to an idle core at indexes below BUF_CAP, or a reset, which makes every byte unspecified again under
the next reset count. No command, no completion and no other transaction changes an IN_BUF byte. -/
def Obligations.InBufChangesOnlyByAcceptedWritesOrReset : Prop :=
  (∀ s : State, s.engineTurn.inBuf = s.inBuf ∧ s.engineTurn.resets = s.resets) ∧
  (∀ (i : Instr) (s t : State), exec i s = .next t →
    t.resets = s.resets ∧
    (t.inBuf = s.inBuf ∨
      (s.busy = false ∧ ∃ idx w, (i = .wr8In idx w ∧ idx.toNat < s.capacity) ∨
        (i = .wr32In idx w ∧ idx.toNat + 3 < s.capacity)))) ∧
  (∀ s t : State, step s = .next t →
    (t.inBuf = s.inBuf ∧ t.resets = s.resets) ∨
    (∃ x rest idx w, s.inputs = .wire x :: rest ∧ s.busy = false ∧ t.resets = s.resets ∧
      ((decode x = .wr8In idx w ∧ idx.toNat < s.capacity) ∨
        (decode x = .wr32In idx w ∧ idx.toNat + 3 < s.capacity))) ∨
    (∃ rest, s.inputs = .reset :: rest ∧ (∀ a, t.inBuf.read? a = none) ∧ t.resets = s.resets + 1))

/-- R36: the host never makes an OUT_BUF byte definite: an accepted transaction leaves OUT_BUF as it is, or is a START,
which leaves every byte unspecified. -/
def Obligations.HostNeverWritesOutBuf : Prop :=
  ∀ (i : Instr) (s t : State), exec i s = .next t →
    t.outBuf = s.outBuf ∧ t.outLen = s.outLen ∨
    (starts i = true ∧ s.busy = false ∧ (∀ a, t.outBuf.read? a = none) ∧ t.outLen = 0)

/-- R40: the flags are written only by an accepted START, by completion and by reset. -/
def Obligations.FlagsAreWrittenOnlyByStartCompletionAndReset : Prop :=
  ∀ s t : State, step s = .next t →
    (t.busy = s.busy ∧ t.done = s.done ∧ t.err = s.err) ∨
    (∃ w rest, s.inputs = .wire w :: rest ∧ starts (decode w) = true ∧ s.busy = false ∧
      t.busy = true ∧ t.done = false ∧ t.err = 0) ∨
    (s.busy = true ∧ (s.inputs = [] ∨ ∃ rest, s.inputs = .engine :: rest) ∧ t.busy = false ∧ t.done = true) ∨
    (∃ rest, s.inputs = .reset :: rest ∧ t.busy = false ∧ t.done = false ∧ t.err = 0)

/-! ## BusError -/

/-- R190, R51 to R54: a transaction is accepted exactly when the map accepts it; otherwise it raises BusError, a read with a
free data word (R60). No instruction is refused. -/
def Obligations.BusErrorExactlyWhenTheMapRefuses : Prop :=
  ∀ (i : Instr) (s : State),
    (accepts s.capacity i = true → ∃ t, exec i s = .next t) ∧
    (accepts s.capacity i = false → ∃ cause, exec i s =
      .fault (.busError cause (if reads i then some (Config.refusedReadData s.draws) else none)))

/-- R51, R53, R190, R202: a size-1 transaction of the register window, every transaction of the reserved window and every
transaction of an unsupported size raise BusError at every offset, in every state; a read with a free data word (R60). -/
def Obligations.RowsThatAlwaysRaiseBusError : Prop :=
  ∀ (s : State) (off : BitVec 16) (o : BitVec 18) (w : Word) (we : Bool) (sz : BitVec 2),
    let word : Option Word := some (Config.refusedReadData s.draws)
    (∃ c, exec (.rd8Reg off) s = .fault (.busError c word)) ∧
    (∃ c, exec (.wr8Reg off w) s = .fault (.busError c none)) ∧
    (∃ c, exec (.reservedSpace we sz off w) s = .fault (.busError c (if we then none else word))) ∧
    (∃ c, exec (.badSize we sz o w) s = .fault (.busError c (if we then none else word)))

/-- R50: the address map: every offset of the window has one physical address, BASE_ADDR plus the offset, and no other
address lies in the window. That addresses are numbers without a bound, so that the window does not wrap, is the model's
choice (log 21). -/
def Obligations.WindowIsFortyThousandHexBytes : Prop :=
  (∀ off : BitVec 18, windowOffset? (physicalAddress off) = some off) ∧
  (∀ a : Nat, (windowOffset? a).isSome = true ↔ Config.baseAddr ≤ a ∧ a < Config.baseAddr + 0x40000) ∧
  (∀ (a : Nat) (off : BitVec 18), windowOffset? a = some off → physicalAddress off = a)

/-! ## symbol_mapper and padding_validator -/

/-- R108: the tables are inverse on the canonical symbols; a valid byte that is not canonical has a canonical symbol of the
same value, which is another byte. -/
def Obligations.TablesAreInverseOnCanonicalSymbols : Prop :=
  (∀ (f : Format) (v : BitVec 5), decMap f (encMap f v) = some v) ∧
  (∀ (f : Format) (c : Byte) (v : BitVec 5), decMap f c = some v → c ∉ encRom f →
    encMap f v ∈ encRom f ∧ encMap f v ≠ c ∧ decMap f (encMap f v) = some v)

/-- R104, R102, R103, R109: each decode table has 256 entries, 58 of them valid in RFC4648 and 60 in Crockford, an entry
is the lookup of its index, and lookup ignores the ASCII case of a letter. -/
def Obligations.DecodeTablesHaveTheirValidEntries : Prop :=
  (∀ f : Format, (decRom f).length = 256) ∧
  ((decRom .rfc).filter (·.isSome)).length = 58 ∧ ((decRom .crk).filter (·.isSome)).length = 60 ∧
  (∀ (f : Format) (c : Byte), (decRom f)[c.toNat]? = some (decMap f c)) ∧
  (∀ (f : Format) (c : Byte), decMap f c = decMap f (flipCase c))

/-- R121, R128: the pad count depends on n mod 5 only and makes the output length a multiple of 8; R120: the port answers
it in 3 bits. -/
def Obligations.PaddingCompletesTheLastGroup : Prop :=
  ∀ n : Nat,
    (n % 5 = 0 → padGen n = 0) ∧ (n % 5 = 1 → padGen n = 6) ∧ (n % 5 = 2 → padGen n = 4) ∧
    (n % 5 = 3 → padGen n = 3) ∧ (n % 5 = 4 → padGen n = 1) ∧ ((8 * n + 4) / 5 + padGen n) % 8 = 0 ∧
    ∀ w : Word, w.toNat = n → (padGenPort w).toNat = padGen n

/-- R123: the trailing `=` count is the greatest k such that the last k bytes are all `=`. -/
def Obligations.TrailingCountIsTheGreatest : Prop :=
  ∀ t : List Byte,
    trailingEq t ≤ t.length ∧ (∀ b ∈ t.drop (t.length - trailingEq t), b = 0x3D) ∧
    ∀ k, k ≤ t.length → (∀ b ∈ t.drop (t.length - k), b = 0x3D) → k ≤ trailingEq t

/-- R124, R125, R126, R129: the verdicts of pad_check, on its port too, where m is 0 unless OK (R120); R130: the accepted pad counts are exactly the generated ones, and an
accepted text has the symbol counts of R122. -/
def Obligations.PadCheckAcceptsTheGeneratedCounts : Prop :=
  (∀ len p : Nat,
    (len % 8 ≠ 0 → padCheck len p = .invalidLength) ∧
    (len % 8 = 0 → (p > 6 ∨ p = 2 ∨ p = 5 ∨ p = 7) → padCheck len p = .invalidPadding) ∧
    (len % 8 = 0 → (p = 0 ∨ p = 1 ∨ p = 3 ∨ p = 4 ∨ p = 6) → padCheck len p = .ok (len - p))) ∧
  (∀ l p : Word,
    (l.toNat % 8 ≠ 0 → padCheckPort l p = (.invalidLength, 0)) ∧
    (l.toNat % 8 = 0 → (p.toNat > 6 ∨ p = 2 ∨ p = 5 ∨ p = 7) → padCheckPort l p = (.invalidPadding, 0)) ∧
    (l.toNat % 8 = 0 → p.toNat ≤ l.toNat → (p = 0 ∨ p = 1 ∨ p = 3 ∨ p = 4 ∨ p = 6) →
      padCheckPort l p = (.ok, l - p))) ∧
  (∀ p : Nat, (∃ n, padGen n = p) ↔ ∃ m, padCheck 8 p = .ok m) ∧
  (∀ len p m : Nat, p ≤ len → padCheck len p = .ok m →
    (p = 0 ∧ m % 8 = 0) ∨ (p = 1 ∧ m % 8 = 7) ∨ (p = 3 ∧ m % 8 = 5) ∨ (p = 4 ∧ m % 8 = 4) ∨ (p = 6 ∧ m % 8 = 2))

/-! ## base32_encoder -/

/-- R148: the length laws of encode. -/
def Obligations.EncodeHasItsLength : Prop :=
  ∀ d : List Byte,
    (encodeText .crk d).length = (8 * d.length + 4) / 5 ∧
    (encodeText .rfc d).length = 8 * ((d.length + 4) / 5) ∧
    (d = [] → encodeText .crk d = [] ∧ encodeText .rfc d = [])

/-- R149: the output alphabet of encode: canonical symbols, then `=` in RFC4648 only; no lower-case letter and no `-`. -/
def Obligations.EncodeProducesCanonicalSymbols : Prop :=
  ∀ d : List Byte,
    (∀ c ∈ encodeText .crk d, c ∈ encCrk ∧ c ≠ 0x3D) ∧
    (∃ symbols pads : List Byte, encodeText .rfc d = symbols ++ pads ∧
      (∀ c ∈ symbols, c ∈ encRfc) ∧ (∀ c ∈ pads, c = 0x3D)) ∧
    (∀ f, ∀ c ∈ encodeText f d, c ≠ 0x2D ∧ ¬(0x61 ≤ c.toNat ∧ c.toNat ≤ 0x7A))

/-- R145, with R141 to R144: the reference datapath, one 40-bit group at a time, computes the whole function, and its
accumulator holds at most 40 significant bits. -/
def Obligations.GroupedEncoderComputesEncode : Prop :=
  (∀ (f : Format) (d : List Byte), encodeByGroups f d = encodeText f d) ∧
  (∀ g : List Byte, g.length ≤ 5 → (packGroup g).toNat < 2 ^ 40)

/-! ## base32_decoder -/

/-- R168, R166: the reference datapath, shifting values into a 40-bit accumulator, computes the whole function; NBITS takes
only the values 0, 5, .., 40 and ACC holds no more than NBITS bits (R169). -/
def Obligations.AccumulatorDecoderComputesDecode : Prop :=
  (∀ (f : Format) (t : List Byte), decodeByDatapath f t = decodeText f t) ∧
  (∀ (dp : Datapath) (v : BitVec 5), dp.nbits.val % 5 = 0 → dp.nbits.val < 40 → dp.acc.toNat < 2 ^ dp.nbits.val →
    (dp.shiftIn v).1.nbits.val % 5 = 0 ∧ (dp.shiftIn v).1.nbits.val < 40 ∧
    (dp.shiftIn v).1.acc.toNat < 2 ^ (dp.shiftIn v).1.nbits.val)

/-- R172: the round trip of the codec. -/
def Obligations.DecodeOfEncodeIsTheData : Prop :=
  ∀ (f : Format) (d : List Byte), decodeText f (encodeText f d) = .ok d

/-- R169: the length of a successful decode: never longer than the input, and for RFC4648 5 bytes a group less what the
padding takes away. -/
def Obligations.DecodeHasItsLength : Prop :=
  ∀ (t bytes : List Byte),
    (∀ f, decodeText f t = .ok bytes → bytes.length ≤ t.length) ∧
    (decodeText .crk t = .ok bytes → bytes.length = 5 * (t.filter (· ≠ 0x2D)).length / 8) ∧
    (decodeText .rfc t = .ok bytes →
      (trailingEq t = 0 ∧ bytes.length = 5 * (t.length / 8)) ∨
      (trailingEq t = 1 ∧ bytes.length = 5 * (t.length / 8) - 1) ∨
      (trailingEq t = 3 ∧ bytes.length = 5 * (t.length / 8) - 2) ∨
      (trailingEq t = 4 ∧ bytes.length = 5 * (t.length / 8) - 3) ∨
      (trailingEq t = 6 ∧ bytes.length = 5 * (t.length / 8) - 4))

/-- R167: the last 5M mod 8 bits of the values are not checked. Two texts of one format (in RFC4648 of the same length and
trailing `=` count) whose data symbols have as many values, and values whose bits agree before the discarded ones, decode
to the same result; and a text whose symbols all have values, and whose length and padding are accepted, is accepted. -/
def Obligations.DiscardedBitsAreNotChecked : Prop :=
  let symbols (f : Format) (t : List Byte) : List Byte :=
    match f with
    | .rfc => t.take (t.length - trailingEq t)
    | .crk => t
  (∀ (f : Format) (t t' : List Byte) (vs ws : List (BitVec 5)),
    (f = .rfc → t.length = t'.length ∧ trailingEq t = trailingEq t') →
    scanFrom f 0 (symbols f t) = .values vs → scanFrom f 0 (symbols f t') = .values ws → vs.length = ws.length →
    (vs.flatMap bits5).take (8 * (5 * vs.length / 8)) = (ws.flatMap bits5).take (8 * (5 * vs.length / 8)) →
    decodeText f t = decodeText f t') ∧
  (∀ (f : Format) (t : List Byte) (vs : List (BitVec 5)),
    (f = .rfc → ∃ m, padCheck t.length (trailingEq t) = .ok m) → scanFrom f 0 (symbols f t) = .values vs →
    ∃ bytes, decodeText f t = .ok bytes)

/-- R173: case, alias and separator laws of decode. -/
def Obligations.DecodeIgnoresCaseAliasesAndSeparators : Prop :=
  (∀ (f : Format) (t : List Byte),
    sameUpToCase (decodeText f t) (decodeText f (t.map lowerCase)) ∧
    sameUpToCase (decodeText f t) (decodeText f (t.map upperCase)) ∧
    sameUpToCase (decodeText f (t.map lowerCase)) (decodeText f (t.map upperCase))) ∧
  (∀ t t' : List Byte, List.Forall₂ (fun a b => b = a ∨ b = unalias a) t t' →
    decodeText .crk t' = decodeText .crk t) ∧
  (∀ (t t' bytes : List Byte), t.filter (· ≠ 0x2D) = t'.filter (· ≠ 0x2D) →
    decodeText .crk t = .ok bytes → decodeText .crk t' = .ok bytes)

/-! ## The machine as a whole -/

/-- The legal states hold the reset state. -/
def Obligations.ResetStateIsLegal : Prop := State.reset.Legal

/-- Every step of a legal state leads to a legal state: BUF_CAP within R6's bounds, the buffers canonical and inside
BUF_CAP with exactly OUT_LEN defined result bytes (R35, R36), the record clear while a command runs and before the first
completion (R27, R193), and otherwise that of one outcome of R224, with no data on an error (R28). -/
def Obligations.EveryStepKeepsTheStateLegal : Prop :=
  ∀ s t : State, s.Legal → step s = .next t → t.Legal

/-- R27: BUSY = 1 implies DONE = 0 and ERR = 0, and BUSY and DONE are never both 1: true after reset and kept by every step;
BUSY = 0 and DONE = 0 holds only after reset, before the first completion: no other step leads there. -/
def Obligations.StatusInvariants : Prop :=
  (State.reset.busy = false ∧ State.reset.done = false) ∧
  (∀ s t : State, step s = .next t → (s.busy = true → s.done = false ∧ s.err = 0) →
    (t.busy = true → t.done = false ∧ t.err = 0)) ∧
  (∀ s t : State, step s = .next t → t.busy = false → t.done = false →
    (s.busy = false ∧ s.done = false) ∨ ∃ rest, s.inputs = .reset :: rest)

/-- R60, R190: inputs that the map accepts never stop the machine, however many steps it runs: a run is stopped by BusError
only. -/
def Obligations.AcceptedInputsNeverStopTheMachine : Prop :=
  ∀ (k : Nat) (s : State), (∀ x ∈ s.inputs, x.accepted s.capacity = true) → safeRun k s

/-- R220, R196: every command ends in completion unless reset comes first: where the inputs up to the next engine turn, or
all of them, are accepted and hold no reset, the engine is idle and DONE is set within one step more than they are,
whatever comes after (a reset too). That the engine gets a turn at the latest when no input is left is the model's
fairness (log 4). -/
def Obligations.EveryCommandCompletes : Prop :=
  ∀ (s : State) (pre rest : List Input), s.busy = true → s.inputs = pre ++ rest →
    (∀ x ∈ pre, x.accepted s.capacity = true) → .reset ∉ pre → (rest = [] ∨ ∃ later, rest = .engine :: later) →
    ∃ k t, k ≤ pre.length + 1 ∧ Sys2Proof.core.run k s = .next t ∧ t.busy = false ∧ t.done = true

/-- R172 through the machine: what ENCODE left in OUT_BUF, given to DECODE with the same format, comes back as the data.
Both commands run from START to completion, in any two idle states of the same BUF_CAP. -/
def Obligations.EncodedBufferDecodesToTheData : Prop :=
  ∀ (s s' : State) (fmt : BitVec 2), s.busy = false → s'.busy = false → s.Legal → s'.capacity = s.capacity →
    fmt.getLsbD 1 = false →
    let u := ((s.setCtrl 0 fmt).startCommand).engineTurn
    let u' := ((s'.setCtrl 1 fmt).startCommand).engineTurn
    u.err = 0 → s'.inLen = u.outLen → (∀ i, i < u.outLen.toNat → u.outBuf.read? i = some (s'.inByte i)) →
    u'.shows 0 0 0 0 ((List.range s.inLen.toNat).map s.inByte)

/-- R79: the pseudo-instructions mean their expansions, wherever the engine's turns fall among their transactions (the
schedule, log 16). LOAD stores a sequence in IN_BUF from index 0 and its length in IN_LEN and changes nothing else of an
idle core. The command pseudo-instructions are the writes of their command words and mean their command forms. WAIT polls
STATUS until DONE reads 1 and then reads it once more: it ends only with DONE set, after two reads at least; with a command
running it ends exactly when the engine has had its turn, having shown the completed command's STATUS; with no command
running and DONE clear it does not end. -/
def Obligations.PseudoInstructionsMeanTheirExpansions : Prop :=
  (∀ (s : State) (bytes : List Byte) (turns : List Bool), s.busy = false → s.capacity ≤ 65536 →
    bytes.length ≤ s.capacity → bytes.length < turns.length →
    ∃ t, runHost turns (Pseudo.load bytes).expand s = some (.next t) ∧
      t = { s with inBuf := t.inBuf, inLen := BitVec.ofNat 32 bytes.length, response := .written } ∧
      (∀ i, i < bytes.length → t.inBuf.read? i = bytes[i]?) ∧
      (∀ i, bytes.length ≤ i → t.inBuf.read? i = s.inBuf.read? i)) ∧
  (∀ (s : State) (turn : Bool) (turns : List Bool),
    let u := s.turnIf turn
    runHost (turn :: turns) Pseudo.encodeRfc.expand s = some (exec (.encodeRfc ⟨0, 0, 0⟩) u) ∧
    runHost (turn :: turns) Pseudo.encodeCrk.expand s = some (exec (.encodeCrk ⟨0, 0, 0⟩) u) ∧
    runHost (turn :: turns) Pseudo.decodeRfc.expand s = some (exec (.decodeRfc ⟨0, 0, 0⟩) u) ∧
    runHost (turn :: turns) Pseudo.decodeCrk.expand s = some (exec (.decodeCrk ⟨0, 0, 0⟩) u) ∧
    (∀ op fmt, runHost (turn :: turns) (Pseudo.setFmt op fmt).expand s = some (exec (.config op fmt ⟨0, 0, 0⟩) u)) ∧
    (∀ op fmt, runHost (turn :: turns) (Pseudo.cmd op fmt).expand s =
      some (exec (decode (.ctrl (ctrlWord 1 op fmt ⟨0, 0, 0⟩))) u))) ∧
  (∀ (s : State) (turns : List Bool) (o : Host.Outcome State Fault Refusal),
    (s.busy = true → s.done = false) → runHost turns Pseudo.wait.expand s = some o →
    2 ≤ turns.length ∧ ∃ t, o = .next t ∧ t.busy = false ∧ t.done = true ∧ t.response = .read t.statusView) ∧
  (∀ (s : State) (k : Nat), s.busy = true → s.done = false →
    runHost (List.replicate k false) Pseudo.wait.expand s = none ∧
    ∀ (turn : Bool) (turns : List Bool),
      runHost (List.replicate k false ++ true :: turn :: turns) Pseudo.wait.expand s =
        some (.next { s.engineTurn with response := .read s.engineTurn.statusView })) ∧
  (∀ (s : State) (turns : List Bool), s.busy = false → s.done = false →
    runHost turns Pseudo.wait.expand s = none) ∧
  (∀ (s : State) (turn turn' : Bool) (turns : List Bool), s.busy = false → s.done = true →
    runHost (turn :: turn' :: turns) Pseudo.wait.expand s =
      some (.next { s with response := .read s.statusView }))
end

