-- ==== Sys2Proof/Laws/Bits.lean ====
section
/-! SUPPORT. Bit strings (spec/00_scope.md R8): `num` and the bits of a value are inverse, and a bit string is cut into
fields and put together again. -/

namespace Sys2Proof.Machine

@[simp] theorem length_bitsMsb {n : Nat} (v : BitVec n) : (bitsMsb v).length = n := by simp [bitsMsb]

@[simp] theorem length_bits8 (b : Byte) : (bits8 b).length = 8 := length_bitsMsb b

@[simp] theorem length_bits5 (v : BitVec 5) : (bits5 v).length = 5 := length_bitsMsb v

@[simp] theorem num_nil : num [] = 0 := rfl

/-- `num` from an accumulator. -/
theorem foldl_num (bs : List Bool) (a : Nat) :
    bs.foldl (fun n b => 2 * n + b.toNat) a = a * 2 ^ bs.length + num bs := by
  induction bs generalizing a with
  | nil => simp
  | cons b bs ih =>
    simp only [num, List.foldl_cons, List.length_cons]
    rw [ih, ih (2 * 0 + b.toNat)]
    ring

theorem num_append (xs ys : List Bool) : num (xs ++ ys) = num xs * 2 ^ ys.length + num ys := by
  rw [num, List.foldl_append, foldl_num]
  rfl

theorem num_cons (b : Bool) (bs : List Bool) : num (b :: bs) = b.toNat * 2 ^ bs.length + num bs := by
  rw [← List.singleton_append, num_append]
  simp [num]

theorem num_lt (bs : List Bool) : num bs < 2 ^ bs.length := by
  induction bs with
  | nil => simp
  | cons b bs ih =>
    rw [num_cons, List.length_cons, Nat.pow_succ]
    have : b.toNat ≤ 1 := Bool.toNat_le b
    have h1 : b.toNat * 2 ^ bs.length ≤ 1 * 2 ^ bs.length := Nat.mul_le_mul_right _ this
    omega

/-- A bit string is determined by its length and its number. -/
theorem eq_of_num_eq {xs ys : List Bool} (hl : xs.length = ys.length) (hn : num xs = num ys) : xs = ys := by
  induction xs generalizing ys with
  | nil => cases ys with
    | nil => rfl
    | cons y ys => simp at hl
  | cons x xs ih =>
    cases ys with
    | nil => simp at hl
    | cons y ys =>
      simp only [List.length_cons, Nat.add_right_cancel_iff] at hl
      rw [num_cons, num_cons, hl] at hn
      have hx := num_lt xs
      have hy := num_lt ys
      rw [hl] at hx
      have hxy : x = y := by
        cases x <;> cases y <;> (simp_all; try omega)
      subst hxy
      rw [ih hl (by omega)]

/-- The number of a value's bits is the value. -/
theorem num_bitsMsb {n : Nat} (v : BitVec n) : num (bitsMsb v) = v.toNat := by
  induction n with
  | zero => simp [bitsMsb, BitVec.eq_nil v]
  | succ n ih =>
    have hb : bitsMsb v = v.getLsbD n :: bitsMsb (v.setWidth n) := by
      simp only [bitsMsb, List.range_succ_eq_map, List.map_cons, List.map_map]
      refine congrArg₂ _ (by simp) (List.map_congr_left fun i hi => ?_)
      have hi' : i < n := List.mem_range.1 hi
      show v.getLsbD (n + 1 - 1 - (i + 1)) = (v.setWidth n).getLsbD (n - 1 - i)
      rw [BitVec.getLsbD_setWidth, decide_eq_true (show n - 1 - i < n by omega), Bool.true_and,
        show n + 1 - 1 - (i + 1) = n - 1 - i by omega]
    rw [hb, num_cons, ih, length_bitsMsb, BitVec.toNat_setWidth]
    have hv := v.isLt
    have ht : v.getLsbD n = decide (2 ^ n ≤ v.toNat) := by
      rw [← BitVec.testBit_toNat]
      rcases Nat.lt_or_ge v.toNat (2 ^ n) with h | h
      · rw [Nat.testBit_lt_two_pow h, decide_eq_false (by omega)]
      · rw [decide_eq_true h]
        exact Nat.testBit_of_two_pow_le_and_two_pow_add_one_gt h hv
    rw [ht]
    rcases Nat.lt_or_ge v.toNat (2 ^ n) with h | h
    · rw [decide_eq_false (by omega), Nat.mod_eq_of_lt h]
      simp
    · rw [decide_eq_true h, Nat.mod_eq_sub_mod h, Nat.mod_eq_of_lt (by rw [Nat.pow_succ] at hv; omega)]
      simp only [Bool.toNat_true, Nat.one_mul]
      omega

/-- The bits of the number of `n` bits are those bits. -/
theorem bitsMsb_num {n : Nat} {bs : List Bool} (h : bs.length = n) : bitsMsb (BitVec.ofNat n (num bs)) = bs := by
  apply eq_of_num_eq
  · simp [h]
  · rw [num_bitsMsb, BitVec.toNat_ofNat, Nat.mod_eq_of_lt (by rw [← h]; exact num_lt bs)]

/-- The value of the number of a value's bits is the value. -/
theorem ofNat_num_bitsMsb {n : Nat} (v : BitVec n) : BitVec.ofNat n (num (bitsMsb v)) = v := by
  rw [num_bitsMsb, BitVec.ofNat_toNat, BitVec.setWidth_eq]

theorem length_field {w : Nat} {bs : List Bool} {j : Nat} (h : w * (j + 1) ≤ bs.length) : (field w bs j).length = w := by
  rw [Nat.mul_succ] at h
  simp only [field, List.length_take, List.length_drop]
  omega

theorem field_zero_append {w : Nat} {xs : List Bool} (h : xs.length = w) (ys : List Bool) : field w (xs ++ ys) 0 = xs := by
  simp [field, ← h]

theorem field_succ_append {w : Nat} {xs : List Bool} (h : xs.length = w) (ys : List Bool) (j : Nat) :
    field w (xs ++ ys) (j + 1) = field w ys j := by
  simp only [field, Nat.mul_succ]
  rw [Nat.add_comm, ← h, List.drop_append, List.drop_eq_nil_of_le (by omega)]
  simp

theorem field_succ (w : Nat) (bs : List Bool) (j : Nat) : field w bs (j + 1) = field w (bs.drop w) j := by
  simp only [field, List.drop_drop, Nat.mul_succ, Nat.add_comm]

/-- Cutting a bit string of `w*k` bits into `k` fields and joining them gives it back. -/
theorem flatMap_field (w k : Nat) (bs : List Bool) (h : bs.length = w * k) :
    (List.range k).flatMap (field w bs) = bs := by
  induction k generalizing bs with
  | zero => simp_all
  | succ k ih =>
    rw [List.range_succ_eq_map, List.flatMap_cons, List.flatMap_map]
    have : (List.range k).flatMap (fun j => field w bs (j + 1)) = bs.drop w := by
      simp only [field_succ]
      exact ih _ (by rw [List.length_drop, h, Nat.mul_succ]; omega)
    simp only [Nat.succ_eq_add_one, this]
    simp [field]

theorem length_flatMap_bits {α : Type} (f : α → List Bool) (w : Nat) (h : ∀ a, (f a).length = w) (l : List α) :
    (l.flatMap f).length = w * l.length := by
  induction l with
  | nil => simp
  | cons a l ih => rw [List.flatMap_cons, List.length_append, h, ih, List.length_cons, Nat.mul_succ, Nat.add_comm]

@[simp] theorem length_flatMap_bits8 (l : List Byte) : (l.flatMap bits8).length = 8 * l.length :=
  length_flatMap_bits _ 8 length_bits8 l

@[simp] theorem length_flatMap_bits5 (l : List (BitVec 5)) : (l.flatMap bits5).length = 5 * l.length :=
  length_flatMap_bits _ 5 length_bits5 l

/-- The fields of joined values are the values' bits. -/
theorem map_field_flatMap {n : Nat} (l : List (BitVec n)) (zs : List Bool) :
    (List.range l.length).map (fun j => BitVec.ofNat n (num (field n (l.flatMap bitsMsb ++ zs) j))) = l := by
  induction l with
  | nil => rfl
  | cons v l ih =>
    rw [List.length_cons, List.range_succ_eq_map, List.map_cons, List.map_map]
    simp only [List.flatMap_cons, List.append_assoc]
    rw [field_zero_append (length_bitsMsb v), ofNat_num_bitsMsb]
    congr 1
    conv_rhs => rw [← ih]
    refine List.map_congr_left fun j _ => ?_
    simp only [Function.comp]
    rw [Nat.succ_eq_add_one, field_succ_append (length_bitsMsb v)]

end Sys2Proof.Machine
end

