-- ==== Sys2Proof/Laws/Codec.lean ====
section
/-! SUPPORT. The laws of the codec's shared functions: the tables, the padding, the values of a text, the scan, and the
accumulator of the reference datapath. -/

namespace Sys2Proof.Machine

/-- A canonical symbol looks up to its value and is neither `=` nor `-`. -/
theorem encMap_facts (f : Format) (v : BitVec 5) :
    decMap f (encMap f v) = some v ∧ encMap f v ≠ padByte ∧ encMap f v ≠ hyphen ∧ encMap f v ∈ encRom f := by
  cases f <;> revert v <;> decide

theorem padGen_cases (n : Nat) :
    (n % 5 = 0 ∧ padGen n = 0) ∨ (n % 5 = 1 ∧ padGen n = 6) ∨ (n % 5 = 2 ∧ padGen n = 4) ∨ (n % 5 = 3 ∧ padGen n = 3) ∨
      (n % 5 = 4 ∧ padGen n = 1) := by
  have h : n % 5 < 5 := Nat.mod_lt _ (by omega)
  have : n % 5 = 0 ∨ n % 5 = 1 ∨ n % 5 = 2 ∨ n % 5 = 3 ∨ n % 5 = 4 := by omega
  rcases this with h | h | h | h | h <;> simp [padGen, h]

/-- The trailing count of padding after a text that does not end in `=`. -/
theorem trailingEq_append_replicate (xs : List Byte) (k : Nat) (h : xs.getLast? ≠ some padByte) :
    trailingEq (xs ++ List.replicate k padByte) = k := by
  have hx : (xs.reverse.takeWhile (· == padByte)) = [] := by
    rcases List.eq_nil_or_concat xs with rfl | ⟨ys, y, rfl⟩
    · rfl
    · simp at h
      simp [h]
  have hr : ∀ (k : Nat) (l : List Byte), (List.replicate k padByte ++ l).takeWhile (· == padByte) =
      List.replicate k padByte ++ l.takeWhile (· == padByte) := by
    intro k l
    induction k with
    | zero => simp
    | succ k ih => simp [List.replicate_succ, ih]
  simp [trailingEq, hr, hx]

/-! ## The encoder's values -/

/-- The 5-bit values of the data, whose symbols the encoder writes. -/
def valuesOf (d : List Byte) : List (BitVec 5) :=
  (List.range (symbolCount d.length)).map fun j => BitVec.ofNat 5 (num (field 5 (paddedBits d) j))

theorem encodeSymbols_eq (f : Format) (d : List Byte) : encodeSymbols f d = (valuesOf d).map (encMap f) := by
  simp [encodeSymbols, valuesOf]

@[simp] theorem length_valuesOf (d : List Byte) : (valuesOf d).length = symbolCount d.length := by simp [valuesOf]

@[simp] theorem length_encodeSymbols (f : Format) (d : List Byte) :
    (encodeSymbols f d).length = symbolCount d.length := by simp [encodeSymbols]

theorem length_paddedBits (d : List Byte) : (paddedBits d).length = 5 * symbolCount d.length := by
  simp only [paddedBits, List.length_append, length_flatMap_bits8, List.length_replicate, symbolCount]
  omega

theorem bits_valuesOf (d : List Byte) : (valuesOf d).flatMap bits5 = paddedBits d := by
  rw [valuesOf, List.flatMap_map]
  conv_rhs => rw [← flatMap_field 5 _ _ (length_paddedBits d)]
  simp only [List.flatMap_def]
  congr 1
  refine List.map_congr_left fun j hj => ?_
  have hj := List.mem_range.1 hj
  exact bitsMsb_num (length_field (by rw [length_paddedBits]; omega))

/-- The values of the data hold its bytes. -/
theorem unpack_valuesOf (d : List Byte) : unpack (valuesOf d) = d := by
  have hk : 5 * (valuesOf d).length / 8 = d.length := by rw [length_valuesOf, symbolCount]; omega
  rw [unpack, hk, bits_valuesOf, paddedBits]
  exact map_field_flatMap d _

/-! ## The decoder's scan -/

@[simp] theorem length_unpack (vs : List (BitVec 5)) : (unpack vs).length = 5 * vs.length / 8 := by simp [unpack]

theorem scan_symbols (f : Format) (vs : List (BitVec 5)) (i : Nat) :
    scanFrom f i (vs.map (encMap f)) = .values vs := by
  induction vs generalizing i with
  | nil => rfl
  | cons v vs ih =>
    obtain ⟨h1, h2, h3, h4⟩ := encMap_facts f v
    have : skips f (encMap f v) = false := by simp [skips, h3]
    simp [scanFrom, this, h1, ih, Scan.cons]

/-- A scan that succeeds finds one value for every byte it does not skip. -/
theorem length_of_scan {f : Format} {i : Nat} {t : List Byte} {vs : List (BitVec 5)}
    (h : scanFrom f i t = .values vs) : vs.length = (t.filter fun c => !skips f c).length := by
  induction t generalizing i vs with
  | nil => simp [scanFrom] at h; simp [h]
  | cons c t ih =>
    unfold scanFrom at h
    split at h
    · next hs => rw [ih h]; simp [hs]
    · next hs =>
      split at h
      · cases hsc : scanFrom f (i + 1) t with
        | values ws => rw [hsc] at h; simp [Scan.cons] at h; subst h; simp [hs, ih hsc]
        | illegal b p => rw [hsc] at h; simp [Scan.cons] at h
      · simp at h

/-! ## The accumulator -/

/-- Shifting a value into the accumulator appends its bits. -/
theorem toNat_push (acc : BitVec 64) (k w : Nat) (v : BitVec w) (hk : k + w ≤ 64) (h : acc.toNat < 2 ^ k) :
    ((acc <<< w) ||| v.setWidth 64).toNat = acc.toNat * 2 ^ w + v.toNat ∧
      acc.toNat * 2 ^ w + v.toNat < 2 ^ (k + w) := by
  have hv := v.isLt
  have hw64 : 2 ^ w ≤ 2 ^ 64 := Nat.pow_le_pow_right (by omega) (by omega)
  have h1 : acc.toNat * 2 ^ w + v.toNat < 2 ^ (k + w) := by
    have : (acc.toNat + 1) * 2 ^ w ≤ 2 ^ k * 2 ^ w := Nat.mul_le_mul_right _ h
    rw [Nat.add_mul, Nat.one_mul, ← Nat.pow_add] at this
    omega
  have h2 : 2 ^ (k + w) ≤ 2 ^ 64 := Nat.pow_le_pow_right (by omega) hk
  refine ⟨?_, h1⟩
  rw [BitVec.toNat_or, BitVec.toNat_shiftLeft, BitVec.toNat_setWidth, Nat.shiftLeft_eq, Nat.mod_eq_of_lt (by omega),
    Nat.mod_eq_of_lt (by omega), Nat.mul_comm, Nat.two_pow_add_eq_or_of_lt hv]

/-- A field of the buffered bits, taken from the accumulator. -/
theorem extract_field (acc : BitVec 64) (bs : List Bool) (hn : acc.toNat = num bs) (w j : Nat)
    (h : w * (j + 1) ≤ bs.length) :
    acc.extractLsb' (bs.length - w * (j + 1)) w = BitVec.ofNat w (num (field w bs j)) := by
  have hs : bs = bs.take (w * j) ++ (field w bs j ++ bs.drop (w * (j + 1))) := by
    rw [field, Nat.mul_succ, ← List.drop_drop, List.take_append_drop, List.take_append_drop]
  have hlen : (bs.drop (w * (j + 1))).length = bs.length - w * (j + 1) := List.length_drop
  have hf := length_field h
  have hlt := num_lt (bs.drop (w * (j + 1)))
  generalize bs.length - w * (j + 1) = k at hlen ⊢
  apply BitVec.eq_of_toNat_eq
  rw [BitVec.extractLsb'_toNat, BitVec.toNat_ofNat, hn, congrArg num hs, num_append, num_append, List.length_append,
    hf, hlen, Nat.shiftRight_eq_div_pow]
  rw [hlen] at hlt
  rw [show num (bs.take (w * j)) * 2 ^ (w + k) + (num (field w bs j) * 2 ^ k + num (bs.drop (w * (j + 1)))) =
      num (bs.drop (w * (j + 1))) + (num (bs.take (w * j)) * 2 ^ w + num (field w bs j)) * 2 ^ k by
        rw [Nat.pow_add]; ring]
  rw [Nat.add_mul_div_right _ _ (Nat.two_pow_pos _), Nat.div_eq_of_lt hlt, Nat.zero_add, Nat.mul_comm, Nat.mul_add_mod]

/-- The accumulator after a group holds the group's bits. -/
theorem packGroup_bits (g : List Byte) (h : g.length ≤ 8) : (packGroup g).toNat = num (g.flatMap bits8) := by
  have gen : ∀ (g : List Byte) (acc : BitVec 64) (bs : List Bool), acc.toNat = num bs → bs.length + 8 * g.length ≤ 64 →
      (g.foldl (fun (acc : BitVec 64) (b : Byte) => (acc <<< 8) ||| b.setWidth 64) acc).toNat =
        num (bs ++ g.flatMap bits8) := by
    intro g
    induction g with
    | nil => intro acc bs h _; simpa using h
    | cons b g ih =>
      intro acc bs h hl
      rw [List.length_cons] at hl
      rw [List.foldl_cons, List.flatMap_cons, ← List.append_assoc]
      apply ih
      · rw [(toNat_push acc bs.length 8 b (by omega) (by rw [h]; exact num_lt bs)).1, num_append, h, length_bits8, bits8,
          num_bitsMsb]
      · simp; omega
  exact gen g 0 [] rfl (by simp; omega)

end Sys2Proof.Machine
end

