-- ==== Sys2Proof/Laws/Encoding.lean ====
section
/-! SUPPORT. What a row's mask reads of a word: the command forms depend on four bits of the command word (spec R74), the
transaction rows on bits 20:16 of the descriptor (spec R77). -/

namespace Sys2Proof

/-- A command word seen through the mask 0x311 of R74: START, OP and FMT only. -/
theorem ctrl_key (w : Word) :
    w &&& 0x311#32 = (BitVec.ofBool (w.getLsbD 0)).setWidth 32 ||| (BitVec.ofBool (w.getLsbD 4)).setWidth 32 <<< 4 |||
      (BitVec.ofBool (w.getLsbD 8)).setWidth 32 <<< 8 ||| (BitVec.ofBool (w.getLsbD 9)).setWidth 32 <<< 9 := by
  apply BitVec.eq_of_getLsbD_eq
  intro i hi
  interval_cases i <;> simp

/-- A row whose mask lies inside 0x311 sees only those bits. -/
theorem hit_key {r : Row 32} (h : r.mask &&& 0x311#32 = r.mask) (w : Word) : r.hit w = r.hit (w &&& 0x311#32) := by
  have : w &&& 0x311#32 &&& r.mask = w &&& r.mask := by
    rw [BitVec.and_assoc, BitVec.and_comm 0x311#32, h]
  simp only [Row.hit, this]

/-- Which form row a word falls in, by its four bits. -/
theorem ctrl_hits (w : Word) :
    rowConfig.hit w = !w.getLsbD 0 ∧
    rowEncodeRfc.hit w = (w.getLsbD 0 && !w.getLsbD 4 && !w.getLsbD 8 && !w.getLsbD 9) ∧
    rowEncodeCrk.hit w = (w.getLsbD 0 && !w.getLsbD 4 && w.getLsbD 8 && !w.getLsbD 9) ∧
    rowDecodeRfc.hit w = (w.getLsbD 0 && w.getLsbD 4 && !w.getLsbD 8 && !w.getLsbD 9) ∧
    rowDecodeCrk.hit w = (w.getLsbD 0 && w.getLsbD 4 && w.getLsbD 8 && !w.getLsbD 9) ∧
    rowCmdBadFmt.hit w = (w.getLsbD 0 && w.getLsbD 9) := by
  rw [hit_key (r := rowConfig) (by decide), hit_key (r := rowEncodeRfc) (by decide),
    hit_key (r := rowEncodeCrk) (by decide), hit_key (r := rowDecodeRfc) (by decide),
    hit_key (r := rowDecodeCrk) (by decide), hit_key (r := rowCmdBadFmt) (by decide), ctrl_key]
  generalize w.getLsbD 0 = a
  generalize w.getLsbD 4 = b
  generalize w.getLsbD 8 = c
  generalize w.getLsbD 9 = d
  revert a b c d
  decide

/-- OP as a bit of the command word. -/
theorem ctrlOp_eq (w : Word) : ctrlOp w = BitVec.ofBool (w.getLsbD 4) := by
  apply BitVec.eq_of_getLsbD_eq
  intro i hi
  interval_cases i
  simp [ctrlOp]

/-- FMT as two bits of the command word. -/
theorem ctrlFmt_eq (w : Word) : ctrlFmt w = BitVec.ofBool (w.getLsbD 9) ++ BitVec.ofBool (w.getLsbD 8) := by
  apply BitVec.eq_of_getLsbD_eq
  intro i hi
  rw [BitVec.getLsbD_append]
  interval_cases i <;> simp [ctrlFmt]

/-- Bits 20:16 of a descriptor: WE, SZ and OFFSET[17:16]. -/
def busKey (d : BitVec 21) : BitVec 5 := d.extractLsb' 16 5

/-- A row's mask inside bits 20:16 sees only those bits. -/
theorem busRow_hit {r : Row 21} (hm : r.mask = (busKey r.mask).setWidth 21 <<< 16)
    (hp : r.pattern = (busKey r.pattern).setWidth 21 <<< 16) (d : BitVec 21) :
    r.hit d = (busKey d &&& busKey r.mask == busKey r.pattern) := by
  have shift_inj : ∀ x y : BitVec 5, (x.setWidth 21 <<< 16 = y.setWidth 21 <<< 16) ↔ x = y := by
    intro x y
    constructor
    · intro h
      apply BitVec.eq_of_getLsbD_eq
      intro i hi
      have := congrArg (fun v => v.getLsbD (16 + i)) h
      simpa [hi, show 16 + i < 21 by omega] using this
    · rintro rfl; rfl
  have key : d &&& r.mask = (busKey d &&& busKey r.mask).setWidth 21 <<< 16 := by
    conv_lhs => rw [hm]
    apply BitVec.eq_of_getLsbD_eq
    intro i hi
    rcases Nat.lt_or_ge i 16 with h | h
    · simp [h]
    · simp [busKey, show ¬ i < 16 by omega, hi, show i - 16 < 5 by omega, show 16 + (i - 16) = i by omega]
  simp only [Row.hit, key]
  rw [Bool.eq_iff_iff, beq_iff_eq, beq_iff_eq, hp, shift_inj, ← hp]

/-- The fields of a descriptor that choose the row, by its key. -/
theorem bus_fields (d : BitVec 21) :
    busWe d = (busKey d).getLsbD 4 ∧ busSz d = (busKey d).extractLsb' 2 2 ∧ busWindow d = (busKey d).extractLsb' 0 2 := by
  refine ⟨by simp [busWe, busKey], ?_, ?_⟩ <;>
  · apply BitVec.eq_of_getLsbD_eq
    intro i hi
    interval_cases i <;> simp [busSz, busWindow, busKey]

/-- Each bit of a command word comes from its field (R70). -/
theorem getLsbD_ctrlWord (st op : BitVec 1) (fmt : BitVec 2) (r : Reserved) (i : Nat) :
    (ctrlWord st op fmt r).getLsbD i =
      if i < 1 then st.getLsbD i else if i < 4 then r.lo.getLsbD (i - 1)
      else if i < 5 then op.getLsbD (i - 4) else if i < 8 then r.mid.getLsbD (i - 5)
      else if i < 10 then fmt.getLsbD (i - 8) else r.hi.getLsbD (i - 10) := by
  have h1 : ¬ i < 1 → (i - 1 < 3 ↔ i < 4) := by omega
  have h2 : ¬ i < 4 → (i - 1 - 3 < 1 ↔ i < 5) := by omega
  have h3 : ¬ i < 5 → (i - 1 - 3 - 1 < 3 ↔ i < 8) := by omega
  have h4 : ¬ i < 8 → (i - 1 - 3 - 1 - 3 < 2 ↔ i < 10) := by omega
  have e2 : i - 1 - 3 = i - 4 := by omega
  have e3 : i - 1 - 3 - 1 = i - 5 := by omega
  have e4 : i - 1 - 3 - 1 - 3 = i - 8 := by omega
  have e5 : i - 1 - 3 - 1 - 3 - 2 = i - 10 := by omega
  simp only [ctrlWord, BitVec.getLsbD_append]
  split
  · rfl
  · next c1 =>
    rw [if_congr (h1 c1) rfl rfl]
    split
    · rfl
    · next c2 =>
      rw [if_congr (h2 c2) rfl rfl, e2]
      split
      · rfl
      · next c3 =>
        rw [← e2, if_congr (h3 c3) rfl rfl, e3]
        split
        · rfl
        · next c4 => rw [← e3, if_congr (h4 c4) rfl rfl, e4, ← e4, e5]

/-- Each bit of a descriptor comes from its field (R77). -/
theorem getLsbD_descriptor (we : Bool) (sz win : BitVec 2) (idx : BitVec 16) (i : Nat) :
    (descriptor we sz (windowOffset win idx)).getLsbD i =
      if i < 16 then idx.getLsbD i else if i < 18 then win.getLsbD (i - 16)
      else if i < 20 then sz.getLsbD (i - 18) else (BitVec.ofBool we).getLsbD (i - 20) := by
  simp only [descriptor, windowOffset, BitVec.getLsbD_append]
  split_ifs <;> first | rfl | omega

/-- The decoder reads back the fields a command word was built from. -/
theorem fields_ctrlWord (st op : BitVec 1) (fmt : BitVec 2) (r : Reserved) :
    ctrlOp (ctrlWord st op fmt r) = op ∧ ctrlFmt (ctrlWord st op fmt r) = fmt ∧
    ctrlReserved (ctrlWord st op fmt r) = r ∧
    (ctrlWord st op fmt r).getLsbD 0 = st.getLsbD 0 ∧ (ctrlWord st op fmt r).getLsbD 4 = op.getLsbD 0 ∧
    (ctrlWord st op fmt r).getLsbD 8 = fmt.getLsbD 0 ∧ (ctrlWord st op fmt r).getLsbD 9 = fmt.getLsbD 1 := by
  refine ⟨?_, ?_, ?_, getLsbD_ctrlWord .., getLsbD_ctrlWord .., getLsbD_ctrlWord .., getLsbD_ctrlWord ..⟩
  · apply BitVec.eq_of_getLsbD_eq
    intro i hi
    interval_cases i
    simp only [ctrlOp, BitVec.getLsbD_extractLsb', getLsbD_ctrlWord]; rfl
  · apply BitVec.eq_of_getLsbD_eq
    intro i hi
    interval_cases i <;> simp only [ctrlFmt, BitVec.getLsbD_extractLsb', getLsbD_ctrlWord] <;> rfl
  · obtain ⟨a, b, c⟩ := r
    simp only [ctrlReserved, Reserved.mk.injEq]
    refine ⟨?_, ?_, ?_⟩ <;>
    · apply BitVec.eq_of_getLsbD_eq
      intro i hi
      interval_cases i <;> simp only [BitVec.getLsbD_extractLsb', getLsbD_ctrlWord] <;> rfl

/-- The decoder reads back the fields a descriptor was built from. -/
theorem fields_descriptor (we : Bool) (sz win : BitVec 2) (idx : BitVec 16) :
    busWe (descriptor we sz (windowOffset win idx)) = we ∧ busSz (descriptor we sz (windowOffset win idx)) = sz ∧
    busWindow (descriptor we sz (windowOffset win idx)) = win ∧
    busIndex (descriptor we sz (windowOffset win idx)) = idx ∧
    busOffset (descriptor we sz (windowOffset win idx)) = windowOffset win idx := by
  refine ⟨?_, ?_, ?_, ?_, ?_⟩
  · simp only [busWe, getLsbD_descriptor]; cases we <;> rfl
  · apply BitVec.eq_of_getLsbD_eq
    intro i hi
    interval_cases i <;> simp only [busSz, BitVec.getLsbD_extractLsb', getLsbD_descriptor] <;> rfl
  · apply BitVec.eq_of_getLsbD_eq
    intro i hi
    interval_cases i <;> simp only [busWindow, BitVec.getLsbD_extractLsb', getLsbD_descriptor] <;> rfl
  · apply BitVec.eq_of_getLsbD_eq
    intro i hi
    interval_cases i <;> simp only [busIndex, BitVec.getLsbD_extractLsb', getLsbD_descriptor] <;> rfl
  · apply BitVec.eq_of_getLsbD_eq
    intro i hi
    simp only [busOffset, BitVec.getLsbD_extractLsb', getLsbD_descriptor]
    interval_cases i <;> simp only [windowOffset, BitVec.getLsbD_append] <;> rfl

/-- An offset is its window and its index (R51). -/
theorem offset_split (off : BitVec 18) : windowOffset (off.extractLsb' 16 2) (off.extractLsb' 0 16) = off := by
  apply BitVec.eq_of_getLsbD_eq
  intro i hi
  simp only [windowOffset, BitVec.getLsbD_append, BitVec.getLsbD_extractLsb']
  interval_cases i <;> rfl

/-- The name of a size-1 or size-4 transaction. -/
def accessName (we wide : Bool) : String :=
  if wide then (if we then "WR32" else "RD32") else (if we then "WR8" else "RD8")

theorem regTransaction_mnemonic (we wide : Bool) (i : BitVec 16) (w : Word) :
    (regTransaction we wide i w).mnemonic = accessName we wide := by cases we <;> cases wide <;> rfl

theorem inTransaction_mnemonic (we wide : Bool) (i : BitVec 16) (w : Word) :
    (inTransaction we wide i w).mnemonic = accessName we wide := by cases we <;> cases wide <;> rfl

theorem outTransaction_mnemonic (we wide : Bool) (i : BitVec 16) (w : Word) :
    (outTransaction we wide i w).mnemonic = accessName we wide := by cases we <;> cases wide <;> rfl

/-- The rows a descriptor falls in, by bits 20:16. -/
theorem busRows_hits (d : BitVec 21) :
    busRows.filter (·.hit d) = busRows.filter fun r => busKey d &&& busKey r.mask == busKey r.pattern :=
  List.filter_congr fun r hr =>
    busRow_hit ((by decide : ∀ r ∈ busRows, r.mask = (busKey r.mask).setWidth 21 <<< 16) r hr)
      ((by decide : ∀ r ∈ busRows, r.pattern = (busKey r.pattern).setWidth 21 <<< 16) r hr) d

/-- Bits 20:16 of a descriptor built from fields. -/
theorem busKey_descriptor (we : Bool) (sz win : BitVec 2) (idx : BitVec 16) :
    busKey (descriptor we sz (windowOffset win idx)) = BitVec.ofBool we ++ sz ++ win := by
  apply BitVec.eq_of_getLsbD_eq
  intro i hi
  simp only [busKey, BitVec.getLsbD_extractLsb', getLsbD_descriptor, BitVec.getLsbD_append]
  interval_cases i <;> rfl

end Sys2Proof
end

