-- ==== Sys2Proof/Laws/Memory.lean ====
section
/-! SUPPORT. The laws of the buffers: a read after a write, the canonical form, and the keys of each operation. -/

namespace Sys2Proof.Machine

@[simp] theorem read?_nil (a : Nat) : Memory.read? [] a = none := rfl

theorem read?_cons (k : Nat) (v : Byte) (m : Memory) (a : Nat) :
    Memory.read? ((k, v) :: m) a = if k = a then some v else Memory.read? m a := rfl

@[simp] theorem read?_write_same (m : Memory) (a : Nat) (b : Byte) : Memory.read? (Memory.write m a b) a = some b := by
  induction m with
  | nil => simp [Memory.write, read?_cons]
  | cons c m ih =>
    obtain ⟨k, v⟩ := c
    unfold Memory.write
    split
    · simp [read?_cons]
    · split
      · simp [read?_cons]
      · rw [read?_cons, if_neg (by omega), ih]

theorem read?_write_other (m : Memory) {a c : Nat} (b : Byte) (h : c ≠ a) :
    Memory.read? (Memory.write m a b) c = Memory.read? m c := by
  induction m with
  | nil => simp [Memory.write, read?_cons, h.symm]
  | cons x m ih =>
    obtain ⟨k, v⟩ := x
    unfold Memory.write
    split
    · simp [read?_cons, h.symm]
    · split
      · next hk => subst hk; simp [read?_cons, h.symm]
      · simp only [read?_cons, ih]

theorem read?_write (m : Memory) (a c : Nat) (b : Byte) :
    Memory.read? (Memory.write m a b) c = if c = a then some b else Memory.read? m c := by
  split
  · next h => rw [h, read?_write_same]
  · next h => exact read?_write_other m b h

/-- Every index listed after a write was listed before, or is the one written. -/
theorem mem_write {m : Memory} {a : Nat} {b : Byte} {c : Host.Cell} (h : c ∈ Memory.write m a b) :
    c = (a, b) ∨ c ∈ m := by
  induction m with
  | nil => simpa [Memory.write] using h
  | cons x m ih =>
    obtain ⟨k, v⟩ := x
    unfold Memory.write at h
    split at h
    · simpa using h
    · split at h
      · rcases List.mem_cons.1 h with h | h
        · exact .inl h
        · exact .inr (List.mem_cons_of_mem _ h)
      · rcases List.mem_cons.1 h with h | h
        · exact .inr (h ▸ List.mem_cons_self)
        · exact (ih h).imp id (List.mem_cons_of_mem _)

theorem wf_nil : Memory.wf [] := List.Pairwise.nil

theorem wf_cons {k : Nat} {v : Byte} {m : Memory} :
    Memory.wf ((k, v) :: m) ↔ (∀ c ∈ m, k < c.1) ∧ Memory.wf m := by
  simp [Memory.wf]

/-- A write keeps the canonical form. -/
theorem wf_write {m : Memory} (a : Nat) (b : Byte) (h : Memory.wf m) : Memory.wf (Memory.write m a b) := by
  induction m with
  | nil => simp [Memory.write, Memory.wf]
  | cons x m ih =>
    obtain ⟨k, v⟩ := x
    obtain ⟨hk, hm⟩ := wf_cons.1 h
    unfold Memory.write
    split
    · next ha =>
      refine wf_cons.2 ⟨fun c hc => ?_, h⟩
      rcases List.mem_cons.1 hc with rfl | hc
      · exact ha
      · exact ha.trans (hk c hc)
    · split
      · next ha =>
        subst ha
        exact wf_cons.2 ⟨hk, hm⟩
      · refine wf_cons.2 ⟨fun c hc => ?_, ih hm⟩
        rcases mem_write hc with rfl | hc
        · simp only; omega
        · exact hk c hc

@[simp] theorem ofBytes_keys (base : Nat) (bs : List Byte) :
    (Memory.ofBytes base bs).map Prod.fst = List.range' base bs.length := by
  induction bs generalizing base with
  | nil => rfl
  | cons b bs ih => simp [Memory.ofBytes, ih, List.range'_succ]

/-- A published result is in canonical form. -/
theorem wf_ofBytes (base : Nat) (bs : List Byte) : Memory.wf (Memory.ofBytes base bs) := by
  simp only [Memory.wf, ofBytes_keys]
  exact List.pairwise_lt_range'

/-- Exactly the bytes of the result are definite. -/
theorem read?_ofBytes (base : Nat) (bs : List Byte) (i : Nat) :
    Memory.read? (Memory.ofBytes base bs) i = if base ≤ i then bs[i - base]? else none := by
  induction bs generalizing base with
  | nil => simp [Memory.ofBytes]
  | cons b bs ih =>
    rw [Memory.ofBytes, read?_cons, ih]
    rcases Nat.lt_trichotomy base i with h | h | h
    · rw [if_neg (by omega), if_pos (by omega), if_pos (by omega), show i - base = (i - (base + 1)) + 1 by omega,
        List.getElem?_cons_succ]
    · subst h; simp
    · rw [if_neg (by omega), if_neg (by omega), if_neg (by omega)]

/-- A listed index has a definite byte. -/
theorem read?_eq_none_of_not_mem {m : Memory} {a : Nat} (h : a ∉ m.map Prod.fst) : Memory.read? m a = none := by
  induction m with
  | nil => rfl
  | cons x m ih =>
    obtain ⟨k, v⟩ := x
    simp only [List.map_cons, List.mem_cons, not_or] at h
    rw [read?_cons, if_neg (Ne.symm h.1), ih h.2]

theorem read?_isSome_of_mem {m : Memory} {a : Nat} (h : a ∈ m.map Prod.fst) : (Memory.read? m a).isSome = true := by
  induction m with
  | nil => simp at h
  | cons x m ih =>
    obtain ⟨k, v⟩ := x
    rw [read?_cons]
    split
    · rfl
    · next hk =>
      simp only [List.map_cons, List.mem_cons] at h
      exact ih (h.resolve_left (Ne.symm hk))

/-- A canonical buffer is the list of its definite bytes: equal reads, equal buffers. -/
theorem eq_of_read?_eq {m n : Memory} (hm : Memory.wf m) (hn : Memory.wf n)
    (h : ∀ a, Memory.read? m a = Memory.read? n a) : m = n := by
  induction m generalizing n with
  | nil =>
    cases n with
    | nil => rfl
    | cons y n => obtain ⟨k, v⟩ := y; simpa [read?_cons] using h k
  | cons x m ih =>
    obtain ⟨k, v⟩ := x
    cases n with
    | nil => simpa [read?_cons] using h k
    | cons y n =>
      obtain ⟨k', v'⟩ := y
      obtain ⟨hk, hm'⟩ := wf_cons.1 hm
      obtain ⟨hk', hn'⟩ := wf_cons.1 hn
      have none_below : ∀ {p : Memory} {a b : Nat}, (∀ c ∈ p, b < c.1) → a ≤ b → Memory.read? p a = none := by
        intro p a b hp hab
        refine read?_eq_none_of_not_mem fun hmem => ?_
        obtain ⟨c, hc, rfl⟩ := List.mem_map.1 hmem
        exact absurd (hp c hc) (by omega)
      have hkk : k = k' := by
        rcases Nat.lt_trichotomy k k' with hlt | heq | hgt
        · have := h k
          rw [read?_cons, if_pos rfl, read?_cons, if_neg (by omega), none_below hk' (by omega)] at this
          cases this
        · exact heq
        · have := h k'
          rw [read?_cons, if_neg (by omega), none_below hk (by omega), read?_cons, if_pos rfl] at this
          cases this
      subst hkk
      have hv : v = v' := by simpa [read?_cons] using h k
      subst hv
      congr 1
      refine ih hm' hn' fun a => ?_
      rcases Nat.lt_or_ge k a with hlt | hge
      · simpa [read?_cons, show k ≠ a by omega] using h a
      · rw [none_below hk hge, none_below hk' hge]

end Sys2Proof.Machine
end

