-- ==== Sys2Proof/Laws/State.lean ====
section
/-! SUPPORT. One lemma per field of State per named update, so that no later proof unfolds a record update. -/

namespace Sys2Proof.Machine

@[simp] theorem respond_op (r : Response) (s : State) : (s.respond r).op = s.op := rfl
@[simp] theorem respond_fmt (r : Response) (s : State) : (s.respond r).fmt = s.fmt := rfl
@[simp] theorem respond_phase (r : Response) (s : State) : (s.respond r).phase = s.phase := rfl
@[simp] theorem respond_done (r : Response) (s : State) : (s.respond r).done = s.done := rfl
@[simp] theorem respond_err (r : Response) (s : State) : (s.respond r).err = s.err := rfl
@[simp] theorem respond_inLen (r : Response) (s : State) : (s.respond r).inLen = s.inLen := rfl
@[simp] theorem respond_outLen (r : Response) (s : State) : (s.respond r).outLen = s.outLen := rfl
@[simp] theorem respond_errByte (r : Response) (s : State) : (s.respond r).errByte = s.errByte := rfl
@[simp] theorem respond_errPos (r : Response) (s : State) : (s.respond r).errPos = s.errPos := rfl
@[simp] theorem respond_errCount (r : Response) (s : State) : (s.respond r).errCount = s.errCount := rfl
@[simp] theorem respond_capacity (r : Response) (s : State) : (s.respond r).capacity = s.capacity := rfl
@[simp] theorem respond_inBuf (r : Response) (s : State) : (s.respond r).inBuf = s.inBuf := rfl
@[simp] theorem respond_outBuf (r : Response) (s : State) : (s.respond r).outBuf = s.outBuf := rfl
@[simp] theorem respond_datapath (r : Response) (s : State) : (s.respond r).datapath = s.datapath := rfl
@[simp] theorem respond_response (r : Response) (s : State) : (s.respond r).response = r := rfl
@[simp] theorem respond_inputs (r : Response) (s : State) : (s.respond r).inputs = s.inputs := rfl
@[simp] theorem respond_draws (r : Response) (s : State) : (s.respond r).draws = s.draws := rfl
@[simp] theorem respond_resets (r : Response) (s : State) : (s.respond r).resets = s.resets := rfl
@[simp] theorem respond_busy (r : Response) (s : State) : (s.respond r).busy = s.busy := rfl

@[simp] theorem useDraws_op (k : Nat) (s : State) : (s.useDraws k).op = s.op := rfl
@[simp] theorem useDraws_fmt (k : Nat) (s : State) : (s.useDraws k).fmt = s.fmt := rfl
@[simp] theorem useDraws_phase (k : Nat) (s : State) : (s.useDraws k).phase = s.phase := rfl
@[simp] theorem useDraws_done (k : Nat) (s : State) : (s.useDraws k).done = s.done := rfl
@[simp] theorem useDraws_err (k : Nat) (s : State) : (s.useDraws k).err = s.err := rfl
@[simp] theorem useDraws_inLen (k : Nat) (s : State) : (s.useDraws k).inLen = s.inLen := rfl
@[simp] theorem useDraws_outLen (k : Nat) (s : State) : (s.useDraws k).outLen = s.outLen := rfl
@[simp] theorem useDraws_errByte (k : Nat) (s : State) : (s.useDraws k).errByte = s.errByte := rfl
@[simp] theorem useDraws_errPos (k : Nat) (s : State) : (s.useDraws k).errPos = s.errPos := rfl
@[simp] theorem useDraws_errCount (k : Nat) (s : State) : (s.useDraws k).errCount = s.errCount := rfl
@[simp] theorem useDraws_capacity (k : Nat) (s : State) : (s.useDraws k).capacity = s.capacity := rfl
@[simp] theorem useDraws_inBuf (k : Nat) (s : State) : (s.useDraws k).inBuf = s.inBuf := rfl
@[simp] theorem useDraws_outBuf (k : Nat) (s : State) : (s.useDraws k).outBuf = s.outBuf := rfl
@[simp] theorem useDraws_datapath (k : Nat) (s : State) : (s.useDraws k).datapath = s.datapath := rfl
@[simp] theorem useDraws_response (k : Nat) (s : State) : (s.useDraws k).response = s.response := rfl
@[simp] theorem useDraws_inputs (k : Nat) (s : State) : (s.useDraws k).inputs = s.inputs := rfl
@[simp] theorem useDraws_draws (k : Nat) (s : State) : (s.useDraws k).draws = s.draws + k := rfl
@[simp] theorem useDraws_resets (k : Nat) (s : State) : (s.useDraws k).resets = s.resets := rfl
@[simp] theorem useDraws_busy (k : Nat) (s : State) : (s.useDraws k).busy = s.busy := rfl

@[simp] theorem setInByte_op (i : Nat) (b : Byte) (s : State) : (s.setInByte i b).op = s.op := rfl
@[simp] theorem setInByte_fmt (i : Nat) (b : Byte) (s : State) : (s.setInByte i b).fmt = s.fmt := rfl
@[simp] theorem setInByte_phase (i : Nat) (b : Byte) (s : State) : (s.setInByte i b).phase = s.phase := rfl
@[simp] theorem setInByte_done (i : Nat) (b : Byte) (s : State) : (s.setInByte i b).done = s.done := rfl
@[simp] theorem setInByte_err (i : Nat) (b : Byte) (s : State) : (s.setInByte i b).err = s.err := rfl
@[simp] theorem setInByte_inLen (i : Nat) (b : Byte) (s : State) : (s.setInByte i b).inLen = s.inLen := rfl
@[simp] theorem setInByte_outLen (i : Nat) (b : Byte) (s : State) : (s.setInByte i b).outLen = s.outLen := rfl
@[simp] theorem setInByte_errByte (i : Nat) (b : Byte) (s : State) : (s.setInByte i b).errByte = s.errByte := rfl
@[simp] theorem setInByte_errPos (i : Nat) (b : Byte) (s : State) : (s.setInByte i b).errPos = s.errPos := rfl
@[simp] theorem setInByte_errCount (i : Nat) (b : Byte) (s : State) : (s.setInByte i b).errCount = s.errCount := rfl
@[simp] theorem setInByte_capacity (i : Nat) (b : Byte) (s : State) : (s.setInByte i b).capacity = s.capacity := rfl
@[simp] theorem setInByte_inBuf (i : Nat) (b : Byte) (s : State) : (s.setInByte i b).inBuf = s.inBuf.write i b := rfl
@[simp] theorem setInByte_outBuf (i : Nat) (b : Byte) (s : State) : (s.setInByte i b).outBuf = s.outBuf := rfl
@[simp] theorem setInByte_datapath (i : Nat) (b : Byte) (s : State) : (s.setInByte i b).datapath = s.datapath := rfl
@[simp] theorem setInByte_response (i : Nat) (b : Byte) (s : State) : (s.setInByte i b).response = s.response := rfl
@[simp] theorem setInByte_inputs (i : Nat) (b : Byte) (s : State) : (s.setInByte i b).inputs = s.inputs := rfl
@[simp] theorem setInByte_draws (i : Nat) (b : Byte) (s : State) : (s.setInByte i b).draws = s.draws := rfl
@[simp] theorem setInByte_resets (i : Nat) (b : Byte) (s : State) : (s.setInByte i b).resets = s.resets := rfl
@[simp] theorem setInByte_busy (i : Nat) (b : Byte) (s : State) : (s.setInByte i b).busy = s.busy := rfl

@[simp] theorem setCtrl_op (op : BitVec 1) (fmt : BitVec 2) (s : State) : (s.setCtrl op fmt).op = op := rfl
@[simp] theorem setCtrl_fmt (op : BitVec 1) (fmt : BitVec 2) (s : State) : (s.setCtrl op fmt).fmt = fmt := rfl
@[simp] theorem setCtrl_phase (op : BitVec 1) (fmt : BitVec 2) (s : State) : (s.setCtrl op fmt).phase = s.phase := rfl
@[simp] theorem setCtrl_done (op : BitVec 1) (fmt : BitVec 2) (s : State) : (s.setCtrl op fmt).done = s.done := rfl
@[simp] theorem setCtrl_err (op : BitVec 1) (fmt : BitVec 2) (s : State) : (s.setCtrl op fmt).err = s.err := rfl
@[simp] theorem setCtrl_inLen (op : BitVec 1) (fmt : BitVec 2) (s : State) : (s.setCtrl op fmt).inLen = s.inLen := rfl
@[simp] theorem setCtrl_outLen (op : BitVec 1) (fmt : BitVec 2) (s : State) : (s.setCtrl op fmt).outLen = s.outLen := rfl
@[simp] theorem setCtrl_errByte (op : BitVec 1) (fmt : BitVec 2) (s : State) : (s.setCtrl op fmt).errByte = s.errByte := rfl
@[simp] theorem setCtrl_errPos (op : BitVec 1) (fmt : BitVec 2) (s : State) : (s.setCtrl op fmt).errPos = s.errPos := rfl
@[simp] theorem setCtrl_errCount (op : BitVec 1) (fmt : BitVec 2) (s : State) : (s.setCtrl op fmt).errCount = s.errCount := rfl
@[simp] theorem setCtrl_capacity (op : BitVec 1) (fmt : BitVec 2) (s : State) : (s.setCtrl op fmt).capacity = s.capacity := rfl
@[simp] theorem setCtrl_inBuf (op : BitVec 1) (fmt : BitVec 2) (s : State) : (s.setCtrl op fmt).inBuf = s.inBuf := rfl
@[simp] theorem setCtrl_outBuf (op : BitVec 1) (fmt : BitVec 2) (s : State) : (s.setCtrl op fmt).outBuf = s.outBuf := rfl
@[simp] theorem setCtrl_datapath (op : BitVec 1) (fmt : BitVec 2) (s : State) : (s.setCtrl op fmt).datapath = s.datapath := rfl
@[simp] theorem setCtrl_response (op : BitVec 1) (fmt : BitVec 2) (s : State) : (s.setCtrl op fmt).response = s.response := rfl
@[simp] theorem setCtrl_inputs (op : BitVec 1) (fmt : BitVec 2) (s : State) : (s.setCtrl op fmt).inputs = s.inputs := rfl
@[simp] theorem setCtrl_draws (op : BitVec 1) (fmt : BitVec 2) (s : State) : (s.setCtrl op fmt).draws = s.draws := rfl
@[simp] theorem setCtrl_resets (op : BitVec 1) (fmt : BitVec 2) (s : State) : (s.setCtrl op fmt).resets = s.resets := rfl
@[simp] theorem setCtrl_busy (op : BitVec 1) (fmt : BitVec 2) (s : State) : (s.setCtrl op fmt).busy = s.busy := rfl

@[simp] theorem setInLen_op (w : Word) (s : State) : (s.setInLen w).op = s.op := rfl
@[simp] theorem setInLen_fmt (w : Word) (s : State) : (s.setInLen w).fmt = s.fmt := rfl
@[simp] theorem setInLen_phase (w : Word) (s : State) : (s.setInLen w).phase = s.phase := rfl
@[simp] theorem setInLen_done (w : Word) (s : State) : (s.setInLen w).done = s.done := rfl
@[simp] theorem setInLen_err (w : Word) (s : State) : (s.setInLen w).err = s.err := rfl
@[simp] theorem setInLen_inLen (w : Word) (s : State) : (s.setInLen w).inLen = w := rfl
@[simp] theorem setInLen_outLen (w : Word) (s : State) : (s.setInLen w).outLen = s.outLen := rfl
@[simp] theorem setInLen_errByte (w : Word) (s : State) : (s.setInLen w).errByte = s.errByte := rfl
@[simp] theorem setInLen_errPos (w : Word) (s : State) : (s.setInLen w).errPos = s.errPos := rfl
@[simp] theorem setInLen_errCount (w : Word) (s : State) : (s.setInLen w).errCount = s.errCount := rfl
@[simp] theorem setInLen_capacity (w : Word) (s : State) : (s.setInLen w).capacity = s.capacity := rfl
@[simp] theorem setInLen_inBuf (w : Word) (s : State) : (s.setInLen w).inBuf = s.inBuf := rfl
@[simp] theorem setInLen_outBuf (w : Word) (s : State) : (s.setInLen w).outBuf = s.outBuf := rfl
@[simp] theorem setInLen_datapath (w : Word) (s : State) : (s.setInLen w).datapath = s.datapath := rfl
@[simp] theorem setInLen_response (w : Word) (s : State) : (s.setInLen w).response = s.response := rfl
@[simp] theorem setInLen_inputs (w : Word) (s : State) : (s.setInLen w).inputs = s.inputs := rfl
@[simp] theorem setInLen_draws (w : Word) (s : State) : (s.setInLen w).draws = s.draws := rfl
@[simp] theorem setInLen_resets (w : Word) (s : State) : (s.setInLen w).resets = s.resets := rfl
@[simp] theorem setInLen_busy (w : Word) (s : State) : (s.setInLen w).busy = s.busy := rfl

@[simp] theorem setInputs_op (rest : List Input) (s : State) : (s.setInputs rest).op = s.op := rfl
@[simp] theorem setInputs_fmt (rest : List Input) (s : State) : (s.setInputs rest).fmt = s.fmt := rfl
@[simp] theorem setInputs_phase (rest : List Input) (s : State) : (s.setInputs rest).phase = s.phase := rfl
@[simp] theorem setInputs_done (rest : List Input) (s : State) : (s.setInputs rest).done = s.done := rfl
@[simp] theorem setInputs_err (rest : List Input) (s : State) : (s.setInputs rest).err = s.err := rfl
@[simp] theorem setInputs_inLen (rest : List Input) (s : State) : (s.setInputs rest).inLen = s.inLen := rfl
@[simp] theorem setInputs_outLen (rest : List Input) (s : State) : (s.setInputs rest).outLen = s.outLen := rfl
@[simp] theorem setInputs_errByte (rest : List Input) (s : State) : (s.setInputs rest).errByte = s.errByte := rfl
@[simp] theorem setInputs_errPos (rest : List Input) (s : State) : (s.setInputs rest).errPos = s.errPos := rfl
@[simp] theorem setInputs_errCount (rest : List Input) (s : State) : (s.setInputs rest).errCount = s.errCount := rfl
@[simp] theorem setInputs_capacity (rest : List Input) (s : State) : (s.setInputs rest).capacity = s.capacity := rfl
@[simp] theorem setInputs_inBuf (rest : List Input) (s : State) : (s.setInputs rest).inBuf = s.inBuf := rfl
@[simp] theorem setInputs_outBuf (rest : List Input) (s : State) : (s.setInputs rest).outBuf = s.outBuf := rfl
@[simp] theorem setInputs_datapath (rest : List Input) (s : State) : (s.setInputs rest).datapath = s.datapath := rfl
@[simp] theorem setInputs_response (rest : List Input) (s : State) : (s.setInputs rest).response = s.response := rfl
@[simp] theorem setInputs_inputs (rest : List Input) (s : State) : (s.setInputs rest).inputs = rest := rfl
@[simp] theorem setInputs_draws (rest : List Input) (s : State) : (s.setInputs rest).draws = s.draws := rfl
@[simp] theorem setInputs_resets (rest : List Input) (s : State) : (s.setInputs rest).resets = s.resets := rfl
@[simp] theorem setInputs_busy (rest : List Input) (s : State) : (s.setInputs rest).busy = s.busy := rfl

@[simp] theorem startCommand_op (s : State) : (s.startCommand).op = s.op := rfl
@[simp] theorem startCommand_fmt (s : State) : (s.startCommand).fmt = s.fmt := rfl
@[simp] theorem startCommand_phase (s : State) : (s.startCommand).phase = .run := rfl
@[simp] theorem startCommand_done (s : State) : (s.startCommand).done = false := rfl
@[simp] theorem startCommand_err (s : State) : (s.startCommand).err = 0 := rfl
@[simp] theorem startCommand_inLen (s : State) : (s.startCommand).inLen = s.inLen := rfl
@[simp] theorem startCommand_outLen (s : State) : (s.startCommand).outLen = 0 := rfl
@[simp] theorem startCommand_errByte (s : State) : (s.startCommand).errByte = 0 := rfl
@[simp] theorem startCommand_errPos (s : State) : (s.startCommand).errPos = 0 := rfl
@[simp] theorem startCommand_errCount (s : State) : (s.startCommand).errCount = 0 := rfl
@[simp] theorem startCommand_capacity (s : State) : (s.startCommand).capacity = s.capacity := rfl
@[simp] theorem startCommand_inBuf (s : State) : (s.startCommand).inBuf = s.inBuf := rfl
@[simp] theorem startCommand_outBuf (s : State) : (s.startCommand).outBuf = [] := rfl
@[simp] theorem startCommand_datapath (s : State) : (s.startCommand).datapath = Datapath.unspecified s.draws := rfl
@[simp] theorem startCommand_response (s : State) : (s.startCommand).response = s.response := rfl
@[simp] theorem startCommand_inputs (s : State) : (s.startCommand).inputs = s.inputs := rfl
@[simp] theorem startCommand_draws (s : State) : (s.startCommand).draws = s.draws + 1 := rfl
@[simp] theorem startCommand_resets (s : State) : (s.startCommand).resets = s.resets := rfl
@[simp] theorem startCommand_busy (s : State) : (s.startCommand).busy = true := rfl

@[simp] theorem publishOk_op (bytes : List Byte) (s : State) : (s.publish (.ok bytes)).op = s.op := rfl
@[simp] theorem publishOk_fmt (bytes : List Byte) (s : State) : (s.publish (.ok bytes)).fmt = s.fmt := rfl
@[simp] theorem publishOk_phase (bytes : List Byte) (s : State) : (s.publish (.ok bytes)).phase = .idle := rfl
@[simp] theorem publishOk_done (bytes : List Byte) (s : State) : (s.publish (.ok bytes)).done = true := rfl
@[simp] theorem publishOk_err (bytes : List Byte) (s : State) : (s.publish (.ok bytes)).err = 0 := rfl
@[simp] theorem publishOk_inLen (bytes : List Byte) (s : State) : (s.publish (.ok bytes)).inLen = s.inLen := rfl
@[simp] theorem publishOk_outLen (bytes : List Byte) (s : State) : (s.publish (.ok bytes)).outLen = BitVec.ofNat 32 bytes.length := rfl
@[simp] theorem publishOk_errByte (bytes : List Byte) (s : State) : (s.publish (.ok bytes)).errByte = 0 := rfl
@[simp] theorem publishOk_errPos (bytes : List Byte) (s : State) : (s.publish (.ok bytes)).errPos = 0 := rfl
@[simp] theorem publishOk_errCount (bytes : List Byte) (s : State) : (s.publish (.ok bytes)).errCount = 0 := rfl
@[simp] theorem publishOk_capacity (bytes : List Byte) (s : State) : (s.publish (.ok bytes)).capacity = s.capacity := rfl
@[simp] theorem publishOk_inBuf (bytes : List Byte) (s : State) : (s.publish (.ok bytes)).inBuf = s.inBuf := rfl
@[simp] theorem publishOk_outBuf (bytes : List Byte) (s : State) : (s.publish (.ok bytes)).outBuf = Memory.ofBytes 0 bytes := rfl
@[simp] theorem publishOk_datapath (bytes : List Byte) (s : State) : (s.publish (.ok bytes)).datapath = Datapath.unspecified s.draws := rfl
@[simp] theorem publishOk_response (bytes : List Byte) (s : State) : (s.publish (.ok bytes)).response = s.response := rfl
@[simp] theorem publishOk_inputs (bytes : List Byte) (s : State) : (s.publish (.ok bytes)).inputs = s.inputs := rfl
@[simp] theorem publishOk_draws (bytes : List Byte) (s : State) : (s.publish (.ok bytes)).draws = s.draws + 1 := rfl
@[simp] theorem publishOk_resets (bytes : List Byte) (s : State) : (s.publish (.ok bytes)).resets = s.resets := rfl
@[simp] theorem publishOk_busy (bytes : List Byte) (s : State) : (s.publish (.ok bytes)).busy = false := rfl

@[simp] theorem publishErr_op (k : ErrKind) (c : ErrCtx) (s : State) : (s.publish (.err k c)).op = s.op := rfl
@[simp] theorem publishErr_fmt (k : ErrKind) (c : ErrCtx) (s : State) : (s.publish (.err k c)).fmt = s.fmt := rfl
@[simp] theorem publishErr_phase (k : ErrKind) (c : ErrCtx) (s : State) : (s.publish (.err k c)).phase = .idle := rfl
@[simp] theorem publishErr_done (k : ErrKind) (c : ErrCtx) (s : State) : (s.publish (.err k c)).done = true := rfl
@[simp] theorem publishErr_err (k : ErrKind) (c : ErrCtx) (s : State) : (s.publish (.err k c)).err = k.code := rfl
@[simp] theorem publishErr_inLen (k : ErrKind) (c : ErrCtx) (s : State) : (s.publish (.err k c)).inLen = s.inLen := rfl
@[simp] theorem publishErr_outLen (k : ErrKind) (c : ErrCtx) (s : State) : (s.publish (.err k c)).outLen = 0 := rfl
@[simp] theorem publishErr_errByte (k : ErrKind) (c : ErrCtx) (s : State) : (s.publish (.err k c)).errByte = c.byte := rfl
@[simp] theorem publishErr_errPos (k : ErrKind) (c : ErrCtx) (s : State) : (s.publish (.err k c)).errPos = c.pos := rfl
@[simp] theorem publishErr_errCount (k : ErrKind) (c : ErrCtx) (s : State) : (s.publish (.err k c)).errCount = c.count := rfl
@[simp] theorem publishErr_capacity (k : ErrKind) (c : ErrCtx) (s : State) : (s.publish (.err k c)).capacity = s.capacity := rfl
@[simp] theorem publishErr_inBuf (k : ErrKind) (c : ErrCtx) (s : State) : (s.publish (.err k c)).inBuf = s.inBuf := rfl
@[simp] theorem publishErr_outBuf (k : ErrKind) (c : ErrCtx) (s : State) : (s.publish (.err k c)).outBuf = [] := rfl
@[simp] theorem publishErr_datapath (k : ErrKind) (c : ErrCtx) (s : State) : (s.publish (.err k c)).datapath = Datapath.unspecified s.draws := rfl
@[simp] theorem publishErr_response (k : ErrKind) (c : ErrCtx) (s : State) : (s.publish (.err k c)).response = s.response := rfl
@[simp] theorem publishErr_inputs (k : ErrKind) (c : ErrCtx) (s : State) : (s.publish (.err k c)).inputs = s.inputs := rfl
@[simp] theorem publishErr_draws (k : ErrKind) (c : ErrCtx) (s : State) : (s.publish (.err k c)).draws = s.draws + 1 := rfl
@[simp] theorem publishErr_resets (k : ErrKind) (c : ErrCtx) (s : State) : (s.publish (.err k c)).resets = s.resets := rfl
@[simp] theorem publishErr_busy (k : ErrKind) (c : ErrCtx) (s : State) : (s.publish (.err k c)).busy = false := rfl

@[simp] theorem resetPulse_op (s : State) : (s.resetPulse).op = 0 := rfl
@[simp] theorem resetPulse_fmt (s : State) : (s.resetPulse).fmt = 0 := rfl
@[simp] theorem resetPulse_phase (s : State) : (s.resetPulse).phase = .idle := rfl
@[simp] theorem resetPulse_done (s : State) : (s.resetPulse).done = false := rfl
@[simp] theorem resetPulse_err (s : State) : (s.resetPulse).err = 0 := rfl
@[simp] theorem resetPulse_inLen (s : State) : (s.resetPulse).inLen = 0 := rfl
@[simp] theorem resetPulse_outLen (s : State) : (s.resetPulse).outLen = 0 := rfl
@[simp] theorem resetPulse_errByte (s : State) : (s.resetPulse).errByte = 0 := rfl
@[simp] theorem resetPulse_errPos (s : State) : (s.resetPulse).errPos = 0 := rfl
@[simp] theorem resetPulse_errCount (s : State) : (s.resetPulse).errCount = 0 := rfl
@[simp] theorem resetPulse_capacity (s : State) : (s.resetPulse).capacity = s.capacity := rfl
@[simp] theorem resetPulse_inBuf (s : State) : (s.resetPulse).inBuf = [] := rfl
@[simp] theorem resetPulse_outBuf (s : State) : (s.resetPulse).outBuf = [] := rfl
@[simp] theorem resetPulse_datapath (s : State) : (s.resetPulse).datapath = Datapath.unspecified s.draws := rfl
@[simp] theorem resetPulse_response (s : State) : (s.resetPulse).response = .none := rfl
@[simp] theorem resetPulse_inputs (s : State) : (s.resetPulse).inputs = s.inputs := rfl
@[simp] theorem resetPulse_draws (s : State) : (s.resetPulse).draws = s.draws + 1 := rfl
@[simp] theorem resetPulse_resets (s : State) : (s.resetPulse).resets = s.resets + 1 := rfl
@[simp] theorem resetPulse_busy (s : State) : (s.resetPulse).busy = false := rfl

theorem busy_iff_run (s : State) : s.busy = true ↔ s.phase = .run := by
  cases h : s.phase <;> simp [State.busy, h]

theorem not_busy_iff_idle (s : State) : s.busy = false ↔ s.phase = .idle := by
  cases h : s.phase <;> simp [State.busy, h]

end Sys2Proof.Machine
end

