-- ==== Sys2Proof/Laws/Operations.lean ====
section
/-! SUPPORT. What each shared operation can do, said once: the register map, the CTRL write, exec, one step. -/

namespace Sys2Proof.Machine

@[simp] theorem useDraws_zero (s : State) : s.useDraws 0 = s := rfl

@[simp] theorem setInputs_same (s : State) : s.setInputs s.inputs = s := rfl

theorem regAt?_offset (r : Reg) : regAt? r.offset = some r := by cases r <;> rfl

theorem regAt?_eq_some {off : BitVec 16} {r : Reg} : regAt? off = some r ↔ off = r.offset := by
  constructor
  · intro h
    unfold regAt? at h
    apply BitVec.eq_of_toNat_eq
    split at h <;> simp_all [Reg.offset] <;> subst h <;> rfl
  · rintro rfl
    exact regAt?_offset r

/-- The mapped register offsets are the multiples of 4 below 0x20 (R53). -/
theorem regAt?_isSome (off : BitVec 16) :
    (regAt? off).isSome = (decide (off.toNat < 0x20) && off.toNat % 4 == 0) := by
  unfold regAt?
  split <;> simp_all
  omega

theorem acceptCtrl_of_busy {s : State} (h : s.busy = true) (b : Bool) (op : BitVec 1) (fmt : BitVec 2) :
    s.acceptCtrl b op fmt = s := by simp [State.acceptCtrl, h]

theorem acceptCtrl_start {s : State} (h : s.busy = false) (op : BitVec 1) (fmt : BitVec 2) :
    s.acceptCtrl true op fmt = (s.setCtrl op fmt).startCommand := by simp [State.acceptCtrl, h]

theorem acceptCtrl_config {s : State} (h : s.busy = false) (op : BitVec 1) (fmt : BitVec 2) :
    s.acceptCtrl false op fmt = s.setCtrl op fmt := by simp [State.acceptCtrl, h]

/-- What an accepted transaction can do to the state, before the answer: nothing but the use of draws; store OP and FMT;
start a command; store IN_LEN; store an IN_BUF byte or word. Every storing case needs an idle core (R194). -/
inductive Effect (i : Instr) (s : State) : State → Prop where
  | quiet (k : Nat) : Effect i s (s.useDraws k)
  | config (idle : s.busy = false) (op : BitVec 1) (fmt : BitVec 2) : Effect i s (s.setCtrl op fmt)
  | start (idle : s.busy = false) (hs : starts i = true) (op : BitVec 1) (fmt : BitVec 2) :
      Effect i s (s.setCtrl op fmt).startCommand
  | inLen (idle : s.busy = false) (w : Word) : Effect i s (s.setInLen w)
  | inByte (idle : s.busy = false) (idx : BitVec 16) (w : Word) (hi : i = .wr8In idx w) (h : idx.toNat < s.capacity) :
      Effect i s (s.setInByte idx.toNat (lane w 0))
  | inWord (idle : s.busy = false) (idx : BitVec 16) (w : Word) (hi : i = .wr32In idx w)
      (h : idx.toNat + 3 < s.capacity) : Effect i s (s.setInWord idx.toNat w)

theorem Effect.none {i : Instr} {s : State} : Effect i s s := by simpa using Effect.quiet (i := i) (s := s) 0

theorem effect_acceptCtrl {i : Instr} (s : State) (b : Bool) (op : BitVec 1) (fmt : BitVec 2)
    (hs : b = true → starts i = true) : Effect i s (s.acceptCtrl b op fmt) := by
  unfold State.acceptCtrl
  split
  · exact .none
  · next h =>
    split
    · next hb => exact .start (by simpa using h) (hs hb) op fmt
    · exact .config (by simpa using h) op fmt

theorem effect_writeReg (s : State) (off : BitVec 16) (r : Reg) (w : Word) (h : regAt? off = some r) :
    Effect (.wr32Reg off w) s (s.writeReg r w) := by
  have hoff := regAt?_eq_some.1 h
  cases r with
  | ctrl =>
    refine effect_acceptCtrl s _ _ _ fun hb => ?_
    subst hoff
    simpa [starts, Reg.offset, ctrlStart] using hb
  | inLen =>
    simp only [State.writeReg]
    split
    · exact .none
    · next hb => exact .inLen (by simpa using hb) w
  | status => exact .none
  | outLen => exact .none
  | errByte => exact .none
  | errPos => exact .none
  | errCount => exact .none
  | capacity => exact .none

/-- exec answers next only with an effect and an answer. -/
theorem exec_next_effect {i : Instr} {s t : State} (h : exec i s = .next t) : ∃ u r, Effect i s u ∧ t = u.respond r := by
  cases i with
  | config op fmt rsv =>
    simp only [exec, execConfig, Host.Outcome.next.injEq] at h
    exact ⟨_, _, effect_acceptCtrl s false op fmt (by simp), h.symm⟩
  | encodeRfc rsv =>
    simp only [exec, execEncodeRfc, Host.Outcome.next.injEq] at h
    exact ⟨_, _, effect_acceptCtrl s true _ _ (by simp [starts]), h.symm⟩
  | encodeCrk rsv =>
    simp only [exec, execEncodeCrk, Host.Outcome.next.injEq] at h
    exact ⟨_, _, effect_acceptCtrl s true _ _ (by simp [starts]), h.symm⟩
  | decodeRfc rsv =>
    simp only [exec, execDecodeRfc, Host.Outcome.next.injEq] at h
    exact ⟨_, _, effect_acceptCtrl s true _ _ (by simp [starts]), h.symm⟩
  | decodeCrk rsv =>
    simp only [exec, execDecodeCrk, Host.Outcome.next.injEq] at h
    exact ⟨_, _, effect_acceptCtrl s true _ _ (by simp [starts]), h.symm⟩
  | cmdBadFmt op fmt rsv =>
    simp only [exec, execCmdBadFmt, Host.Outcome.next.injEq] at h
    exact ⟨_, _, effect_acceptCtrl s true op fmt (by simp [starts]), h.symm⟩
  | rd32Reg off =>
    simp only [exec, execRd32Reg, busError] at h
    split at h <;> simp only [Host.Outcome.next.injEq, reduceCtorEq] at h
    exact ⟨_, _, .none, h.symm⟩
  | wr32Reg off w =>
    simp only [exec, execWr32Reg, busError] at h
    split at h <;> simp only [Host.Outcome.next.injEq, reduceCtorEq] at h
    next r hr => exact ⟨_, _, effect_writeReg s off r w hr, h.symm⟩
  | rd8Reg off => simp [exec, execRd8Reg, busError] at h
  | wr8Reg off w => simp [exec, execWr8Reg, busError] at h
  | rd8In idx =>
    simp only [exec, execRd8In, busError] at h
    split at h <;> simp only [Host.Outcome.next.injEq, reduceCtorEq] at h
    exact ⟨_, _, .none, h.symm⟩
  | rd8Out idx =>
    simp only [exec, execRd8Out, busError] at h
    split at h <;> simp only [Host.Outcome.next.injEq, reduceCtorEq] at h
    exact ⟨_, _, .quiet 1, h.symm⟩
  | wr8In idx w =>
    simp only [exec, execWr8In, busError] at h
    split at h <;> simp only [Host.Outcome.next.injEq, reduceCtorEq] at h
    next hm =>
      split at h
      · exact ⟨_, _, .none, h.symm⟩
      · next hb => exact ⟨_, _, .inByte (by simpa using hb) idx w rfl (by simpa [State.mapsByte] using hm), h.symm⟩
  | wr8Out idx w =>
    simp only [exec, execWr8Out, busError] at h
    split at h <;> simp only [Host.Outcome.next.injEq, reduceCtorEq] at h
    exact ⟨_, _, .none, h.symm⟩
  | rd32In idx =>
    simp only [exec, execRd32In, busError] at h
    split at h <;> simp only [Host.Outcome.next.injEq, reduceCtorEq] at h
    exact ⟨_, _, .none, h.symm⟩
  | rd32Out idx =>
    simp only [exec, execRd32Out, busError] at h
    split at h <;> simp only [Host.Outcome.next.injEq, reduceCtorEq] at h
    exact ⟨_, _, .quiet 4, h.symm⟩
  | wr32In idx w =>
    simp only [exec, execWr32In, busError] at h
    split at h <;> simp only [Host.Outcome.next.injEq, reduceCtorEq] at h
    next hm =>
      split at h
      · exact ⟨_, _, .none, h.symm⟩
      · next hb =>
        refine ⟨_, _, .inWord (by simpa using hb) idx w rfl ?_, h.symm⟩
        simp only [State.mapsWord, Bool.and_eq_true, decide_eq_true_eq] at hm
        exact hm.2
  | wr32Out idx w =>
    simp only [exec, execWr32Out, busError] at h
    split at h <;> simp only [Host.Outcome.next.injEq, reduceCtorEq] at h
    exact ⟨_, _, .none, h.symm⟩
  | reservedSpace we sz idx w => simp [exec, execReservedSpace, busError] at h
  | badSize we sz off w => simp [exec, execBadSize, busError] at h

/-- One step answers next in one of four ways: a wire ran, the engine had its turn, reset was pulsed, or nothing was
listed and the engine had its turn. -/
theorem step_next_cases {s t : State} (h : step s = .next t) :
    (∃ w rest, s.inputs = .wire w :: rest ∧ exec (decode w) (s.setInputs rest) = .next t) ∨
    (∃ rest, s.inputs = .engine :: rest ∧ t = (s.setInputs rest).engineTurn) ∨
    (∃ rest, s.inputs = .reset :: rest ∧ t = (s.setInputs rest).resetPulse) ∨
    (s.inputs = [] ∧ t = s.engineTurn) := by
  unfold step at h
  split at h
  · next hi =>
    simp only [runQuiet, Host.Outcome.next.injEq] at h
    exact .inr (.inr (.inr ⟨hi, h.symm⟩))
  · next x rest hi =>
    cases x with
    | wire w => exact .inl ⟨w, rest, hi, h⟩
    | engine =>
      simp only [runInput, Host.Outcome.next.injEq] at h
      exact .inr (.inl ⟨rest, hi, h.symm⟩)
    | reset =>
      simp only [runInput, Host.Outcome.next.injEq] at h
      exact .inr (.inr (.inl ⟨rest, hi, h.symm⟩))

theorem engineTurn_of_idle {s : State} (h : s.busy = false) : s.engineTurn = s := by simp [State.engineTurn, h]

theorem engineTurn_of_busy {s : State} (h : s.busy = true) : s.engineTurn = s.publish s.outcome := by
  simp [State.engineTurn, h]

/-- What an engine turn leaves alone, whatever the outcome (R197, R35). -/
theorem engineTurn_frame (s : State) :
    s.engineTurn.op = s.op ∧ s.engineTurn.fmt = s.fmt ∧ s.engineTurn.inLen = s.inLen ∧ s.engineTurn.inBuf = s.inBuf ∧
    s.engineTurn.capacity = s.capacity ∧ s.engineTurn.inputs = s.inputs ∧ s.engineTurn.resets = s.resets ∧
    s.engineTurn.response = s.response := by
  unfold State.engineTurn
  split
  · cases s.outcome <;> simp
  · simp

/-- The state a command begins in is busy (R193). -/
theorem startCommand_outcome (s : State) : s.startCommand.outcome = s.outcome := rfl

@[simp] theorem respond_outcome (r : Response) (s : State) : (s.respond r).outcome = s.outcome := rfl

@[simp] theorem useDraws_outcome (k : Nat) (s : State) : (s.useDraws k).outcome = s.outcome := rfl

@[simp] theorem setInputs_outcome (rest : List Input) (s : State) : (s.setInputs rest).outcome = s.outcome := rfl

/-- The bytes a size-4 write leaves (R55). -/
theorem read?_setInWord (s : State) (i : Nat) (w : Word) (a : Nat) :
    (s.setInWord i w).inBuf.read? a =
      if a = i + 3 then some (lane w 3) else if a = i + 2 then some (lane w 2) else
      if a = i + 1 then some (lane w 1) else if a = i then some (lane w 0) else s.inBuf.read? a := by
  simp only [State.setInWord, setInByte_inBuf, read?_write]

end Sys2Proof.Machine
end

