-- ==== Sys2Proof/Laws/PerInstr.lean ====
section
/-! SUPPORT. Per-instruction statements, one lemma per constructor of Instr (LAWS.json, "per_instruction"). -/

/-- The encoding of a well-formed instruction falls in exactly one row of spec/opcode_table.json, and that row has the
instruction's mnemonic. -/
def Sys2Proof.Laws.RowForm.Statement (i : Sys2Proof.Instr) : Prop :=
  i.wf = true →
    match Sys2Proof.encode i with
    | .ctrl w => (Sys2Proof.ctrlRows.filter (·.hit w)).map Sys2Proof.Row.mnemonic = [i.mnemonic]
    | .bus d _ => (Sys2Proof.busRows.filter (·.hit d)).map Sys2Proof.Row.mnemonic = [i.mnemonic]

namespace Sys2Proof.Laws

open Sys2Proof

/-- The row of a command word built from fields. -/
theorem ctrlWord_row (st op : BitVec 1) (fmt : BitVec 2) (r : Reserved) :
    (ctrlRows.filter (·.hit (ctrlWord st op fmt r))).map Row.mnemonic =
      (ctrlRows.filter (·.hit (ctrlWord st op fmt ⟨0, 0, 0⟩))).map Row.mnemonic := by
  have h := fields_ctrlWord st op fmt r
  have h' := fields_ctrlWord st op fmt ⟨0, 0, 0⟩
  simp only [ctrlRows, List.filter, ctrl_hits, h, h']

/-- The row of a descriptor built from fields. -/
theorem descriptor_row (we : Bool) (sz win : BitVec 2) (idx : BitVec 16) :
    (busRows.filter (·.hit (descriptor we sz (windowOffset win idx)))).map Row.mnemonic =
      (busRows.filter fun r => (BitVec.ofBool we ++ sz ++ win : BitVec 5) &&& busKey r.mask == busKey r.pattern).map
        Row.mnemonic := by
  rw [busRows_hits, busKey_descriptor]

end Sys2Proof.Laws

theorem Sys2Proof.Laws.RowForm.config (op : BitVec 1) (fmt : BitVec 2) (rsv : Reserved) :
    Sys2Proof.Laws.RowForm.Statement (.config op fmt rsv) := by
  intro _
  exact (Sys2Proof.Laws.ctrlWord_row 0 op fmt rsv).trans (by show _ = ["CONFIG"]; clear * -; revert op fmt; decide)

theorem Sys2Proof.Laws.RowForm.encodeRfc (rsv : Reserved) :
    Sys2Proof.Laws.RowForm.Statement (.encodeRfc rsv) := by
  intro _
  exact (Sys2Proof.Laws.ctrlWord_row 1 0 0 rsv).trans (by show _ = ["ENCODE.RFC"]; decide)

theorem Sys2Proof.Laws.RowForm.encodeCrk (rsv : Reserved) :
    Sys2Proof.Laws.RowForm.Statement (.encodeCrk rsv) := by
  intro _
  exact (Sys2Proof.Laws.ctrlWord_row 1 0 1 rsv).trans (by show _ = ["ENCODE.CRK"]; decide)

theorem Sys2Proof.Laws.RowForm.decodeRfc (rsv : Reserved) :
    Sys2Proof.Laws.RowForm.Statement (.decodeRfc rsv) := by
  intro _
  exact (Sys2Proof.Laws.ctrlWord_row 1 1 0 rsv).trans (by show _ = ["DECODE.RFC"]; decide)

theorem Sys2Proof.Laws.RowForm.decodeCrk (rsv : Reserved) :
    Sys2Proof.Laws.RowForm.Statement (.decodeCrk rsv) := by
  intro _
  exact (Sys2Proof.Laws.ctrlWord_row 1 1 1 rsv).trans (by show _ = ["DECODE.CRK"]; decide)

theorem Sys2Proof.Laws.RowForm.cmdBadFmt (op : BitVec 1) (fmt : BitVec 2) (rsv : Reserved) :
    Sys2Proof.Laws.RowForm.Statement (.cmdBadFmt op fmt rsv) := by
  intro h
  exact (Sys2Proof.Laws.ctrlWord_row 1 op fmt rsv).trans (by
    show _ = ["CMD.BADFMT"]
    have h : fmt.getLsbD 1 = true := h
    clear * - h
    revert op fmt
    decide)

theorem Sys2Proof.Laws.RowForm.rd32Reg (off : BitVec 16) :
    Sys2Proof.Laws.RowForm.Statement (.rd32Reg off) := by
  intro _
  exact (Sys2Proof.Laws.descriptor_row false 2 0 off).trans (by show _ = ["RD32"]; decide)

theorem Sys2Proof.Laws.RowForm.wr32Reg (off : BitVec 16) (data : Word) :
    Sys2Proof.Laws.RowForm.Statement (.wr32Reg off data) := by
  intro _
  exact (Sys2Proof.Laws.descriptor_row true 2 0 off).trans (by show _ = ["WR32"]; decide)

theorem Sys2Proof.Laws.RowForm.rd8Reg (off : BitVec 16) :
    Sys2Proof.Laws.RowForm.Statement (.rd8Reg off) := by
  intro _
  exact (Sys2Proof.Laws.descriptor_row false 0 0 off).trans (by show _ = ["RD8"]; decide)

theorem Sys2Proof.Laws.RowForm.wr8Reg (off : BitVec 16) (data : Word) :
    Sys2Proof.Laws.RowForm.Statement (.wr8Reg off data) := by
  intro _
  exact (Sys2Proof.Laws.descriptor_row true 0 0 off).trans (by show _ = ["WR8"]; decide)

theorem Sys2Proof.Laws.RowForm.rd8In (idx : BitVec 16) :
    Sys2Proof.Laws.RowForm.Statement (.rd8In idx) := by
  intro _
  exact (Sys2Proof.Laws.descriptor_row false 0 1 idx).trans (by show _ = ["RD8"]; decide)

theorem Sys2Proof.Laws.RowForm.rd8Out (idx : BitVec 16) :
    Sys2Proof.Laws.RowForm.Statement (.rd8Out idx) := by
  intro _
  exact (Sys2Proof.Laws.descriptor_row false 0 2 idx).trans (by show _ = ["RD8"]; decide)

theorem Sys2Proof.Laws.RowForm.wr8In (idx : BitVec 16) (data : Word) :
    Sys2Proof.Laws.RowForm.Statement (.wr8In idx data) := by
  intro _
  exact (Sys2Proof.Laws.descriptor_row true 0 1 idx).trans (by show _ = ["WR8"]; decide)

theorem Sys2Proof.Laws.RowForm.wr8Out (idx : BitVec 16) (data : Word) :
    Sys2Proof.Laws.RowForm.Statement (.wr8Out idx data) := by
  intro _
  exact (Sys2Proof.Laws.descriptor_row true 0 2 idx).trans (by show _ = ["WR8"]; decide)

theorem Sys2Proof.Laws.RowForm.rd32In (idx : BitVec 16) :
    Sys2Proof.Laws.RowForm.Statement (.rd32In idx) := by
  intro _
  exact (Sys2Proof.Laws.descriptor_row false 2 1 idx).trans (by show _ = ["RD32"]; decide)

theorem Sys2Proof.Laws.RowForm.rd32Out (idx : BitVec 16) :
    Sys2Proof.Laws.RowForm.Statement (.rd32Out idx) := by
  intro _
  exact (Sys2Proof.Laws.descriptor_row false 2 2 idx).trans (by show _ = ["RD32"]; decide)

theorem Sys2Proof.Laws.RowForm.wr32In (idx : BitVec 16) (data : Word) :
    Sys2Proof.Laws.RowForm.Statement (.wr32In idx data) := by
  intro _
  exact (Sys2Proof.Laws.descriptor_row true 2 1 idx).trans (by show _ = ["WR32"]; decide)

theorem Sys2Proof.Laws.RowForm.wr32Out (idx : BitVec 16) (data : Word) :
    Sys2Proof.Laws.RowForm.Statement (.wr32Out idx data) := by
  intro _
  exact (Sys2Proof.Laws.descriptor_row true 2 2 idx).trans (by show _ = ["WR32"]; decide)

theorem Sys2Proof.Laws.RowForm.reservedSpace (we : Bool) (sz : BitVec 2) (idx : BitVec 16) (data : Word) :
    Sys2Proof.Laws.RowForm.Statement (.reservedSpace we sz idx data) := by
  intro h
  have h0 : (!sz.getLsbD 0) = true := (Bool.and_eq_true _ _ ▸ h).1
  exact (Sys2Proof.Laws.descriptor_row we sz 3 idx).trans (by
    show _ = ["RESERVED"]
    clear * - h0
    revert sz we
    decide)

theorem Sys2Proof.Laws.RowForm.badSize (we : Bool) (sz : BitVec 2) (off : BitVec 18) (data : Word) :
    Sys2Proof.Laws.RowForm.Statement (.badSize we sz off data) := by
  intro h
  have h0 : sz.getLsbD 0 = true := (Bool.and_eq_true _ _ ▸ h).1
  have key := Sys2Proof.Laws.descriptor_row we sz (off.extractLsb' 16 2) (off.extractLsb' 0 16)
  rw [Sys2Proof.offset_split] at key
  exact key.trans (by
    show _ = ["BADSIZE"]
    generalize off.extractLsb' 16 2 = win
    clear * - h0
    revert sz we win
    decide)
end

