-- ==== Sys2Proof/Laws/Pseudo.lean ====
section
/-! SUPPORT. What each part of a host program can do: a line's transaction, the poll of STATUS, one move of a run. -/

namespace Sys2Proof.Machine

theorem statusView_done (s : State) : s.statusView.getLsbD 1 = s.done := by
  simp only [State.statusView, BitVec.getLsbD_append]
  cases s.done <;> simp

@[simp] theorem respond_statusView (r : Response) (s : State) : (s.respond r).statusView = s.statusView := rfl

@[simp] theorem turnIf_true (s : State) : s.turnIf true = s.engineTurn := rfl

@[simp] theorem turnIf_false (s : State) : s.turnIf false = s := rfl

theorem turnIf_of_idle {s : State} (h : s.busy = false) (turn : Bool) : s.turnIf turn = s := by
  cases turn
  · rfl
  · exact engineTurn_of_idle h

/-- The answer to an earlier transaction has no part in a completion. -/
theorem engineTurn_respond (r : Response) (s : State) : (s.respond r).engineTurn = s.engineTurn.respond r := by
  cases hb : s.busy with
  | false => rw [engineTurn_of_idle hb, engineTurn_of_idle (show (s.respond r).busy = false from hb)]
  | true =>
    rw [engineTurn_of_busy hb, engineTurn_of_busy (show (s.respond r).busy = true from hb), respond_outcome]
    cases s.outcome <;> rfl

/-- A command is done once its engine's turn is over. -/
theorem engineTurn_done {s : State} (h : s.busy = true) : s.engineTurn.busy = false ∧ s.engineTurn.done = true := by
  rw [engineTurn_of_busy h]
  cases s.outcome <;> exact ⟨rfl, rfl⟩

/-- The poll of WAIT: a read of STATUS. -/
theorem runWire_status (s : State) : runWire (rd32RegWire .status) s = .next (s.respond (.read s.statusView)) := rfl

@[simp] theorem readDone_status (s : State) : (s.respond (.read s.statusView)).readDone = s.done := statusView_done s

@[simp] theorem runHost_nil (turns : List Bool) (s : State) : runHost turns [] s = some (.next s) := by
  cases turns <;> rfl

/-- A line whose transaction answers next is issued again or is done. -/
theorem runHost_next {turn : Bool} {turns : List Bool} {op : HostOp} {ops : List HostOp} {s t : State}
    (h : runWire op.wire (s.turnIf turn) = .next t) :
    runHost (turn :: turns) (op :: ops) s = runHost turns (if op.again t then op :: ops else ops) t := by
  rw [runHost, h]

/-- One poll of WAIT: it is over when DONE was read. -/
theorem runHost_poll (turn : Bool) (turns : List Bool) (ops : List HostOp) (s : State) :
    runHost (turn :: turns) (.pollDone :: ops) s =
      runHost turns (if (s.turnIf turn).done then ops else .pollDone :: ops)
        ((s.turnIf turn).respond (.read (s.turnIf turn).statusView)) := by
  rw [runHost_next (op := .pollDone) (runWire_status (s.turnIf turn))]
  cases h : (s.turnIf turn).done <;> simp [HostOp.again, h]

end Sys2Proof.Machine
end

