-- ==== Sys2Proof/Tests/Slice0.lean ====
section
/-! SUPPORT. The model's own tests: the well-formedness smoke, one decoding per constructor from words written out from
spec/30_encoding.md R70, R74 and R77, single steps and single commands with the results of spec/95_test_vectors.md, and for
each obligation with hypotheses a concrete state and operands that meet them. -/

namespace Sys2Proof.Tests

open Sys2Proof Sys2Proof.Machine

/-! ## Helpers -/

/-- The reset state of a core with this BUF_CAP. -/
def core (cap : Nat) : State := { State.reset with capacity := cap }

/-- A core with a sequence in IN_BUF and its length in IN_LEN. -/
def loaded (cap : Nat) (bytes : List Byte) : State :=
  { core cap with inBuf := Memory.ofBytes 0 bytes, inLen := BitVec.ofNat 32 bytes.length }

/-- A core with a command running. -/
def running (s : State) (op : BitVec 1) (fmt : BitVec 2) : State := (s.setCtrl op fmt).startCommand

/-- A core whose last command left this result. -/
def finished (cap : Nat) (bytes : List Byte) : State :=
  { core cap with done := true, outBuf := Memory.ofBytes 0 bytes, outLen := BitVec.ofNat 32 bytes.length }

/-- What a next state holds; none after a fault or a refusal. -/
def after {α : Type} (o : Host.Outcome State Fault Refusal) (f : State → α) : Option α :=
  match o with
  | .next t => some (f t)
  | .fault _ => none
  | .refused _ => none

/-- The cause of a BusError; none otherwise. -/
def busCause (o : Host.Outcome State Fault Refusal) : Option BusCause :=
  match o with
  | .next _ => none
  | .fault (.busError c _) => some c
  | .refused _ => none

/-- The record of a completed command, and OUT_BUF's defined bytes. -/
structure Record where
  err : BitVec 4
  errByte : Byte
  errPos : Word
  errCount : Word
  outLen : Word
  out : List Byte
deriving DecidableEq, Repr

def record (s : State) : Record := ⟨s.err, s.errByte, s.errPos, s.errCount, s.outLen, s.outBuf.map Prod.snd⟩

def plain : Reserved := ⟨0, 0, 0⟩

/-- `foobar`. -/
def foobar : List Byte := [0x66, 0x6F, 0x6F, 0x62, 0x61, 0x72]

/-- `MZXW6YTBOI======`. -/
def foobarRfc : List Byte :=
  [0x4D, 0x5A, 0x58, 0x57, 0x36, 0x59, 0x54, 0x42] ++ [0x4F, 0x49, 0x3D, 0x3D, 0x3D, 0x3D, 0x3D, 0x3D]

/-- `MY======`. -/
def fRfc : List Byte := [0x4D, 0x59, 0x3D, 0x3D, 0x3D, 0x3D, 0x3D, 0x3D]

/-- `MY=Y====`. -/
def badRfc : List Byte := [0x4D, 0x59, 0x3D, 0x59, 0x3D, 0x3D, 0x3D, 0x3D]

/-! ## Well-formedness: each check refuses an ill-formed term -/

theorem test_wf_refuses_a_supported_format_in_cmdBadFmt : (Instr.cmdBadFmt 0 1 plain).wf = false := by decide
theorem test_wf_refuses_an_unsupported_size_in_reservedSpace :
    (Instr.reservedSpace true 1 0 0).wf = false := by decide
theorem test_wf_refuses_data_with_a_reserved_read : (Instr.reservedSpace false 2 0 1).wf = false := by decide
theorem test_wf_refuses_a_supported_size_in_badSize : (Instr.badSize true 2 0 0).wf = false := by decide
theorem test_wf_refuses_data_with_a_badSize_read : (Instr.badSize false 1 0 1).wf = false := by decide

/-! ## Decoding: each constructor's word, written out from the table -/

theorem test_decode_config : decode (.ctrl 0xFFFFFFFE) = .config 1 3 ⟨0x3FFFFF, 7, 7⟩ := by decide
theorem test_decode_encodeRfc : decode (.ctrl 0x00000001) = .encodeRfc plain := by decide
theorem test_decode_encodeCrk : decode (.ctrl 0x000001E1) = .encodeCrk ⟨0, 7, 0⟩ := by decide
theorem test_decode_decodeRfc : decode (.ctrl 0x0000001F) = .decodeRfc ⟨0, 0, 7⟩ := by decide
theorem test_decode_decodeCrk : decode (.ctrl 0x00000511) = .decodeCrk ⟨1, 0, 0⟩ := by decide
theorem test_decode_cmdBadFmt : decode (.ctrl 0x00000211) = .cmdBadFmt 1 2 plain := by decide
theorem test_decode_rd32Reg : decode (.bus 0x080004 0) = .rd32Reg 0x04 := by decide
theorem test_decode_wr32Reg : decode (.bus 0x180008 6) = .wr32Reg 0x08 6 := by decide
theorem test_decode_rd8Reg : decode (.bus 0x000004 0) = .rd8Reg 0x04 := by decide
theorem test_decode_wr8Reg : decode (.bus 0x10001C 9) = .wr8Reg 0x1C 9 := by decide
theorem test_decode_rd8In : decode (.bus 0x01FFFF 0) = .rd8In 0xFFFF := by decide
theorem test_decode_rd8Out : decode (.bus 0x020004 0) = .rd8Out 4 := by decide
theorem test_decode_wr8In : decode (.bus 0x110004 0x61) = .wr8In 4 0x61 := by decide
theorem test_decode_wr8Out : decode (.bus 0x120000 0x41) = .wr8Out 0 0x41 := by decide
theorem test_decode_rd32In : decode (.bus 0x090004 0) = .rd32In 4 := by decide
theorem test_decode_rd32Out : decode (.bus 0x0A000C 0) = .rd32Out 12 := by decide
theorem test_decode_wr32In : decode (.bus 0x190000 0x626F6F66) = .wr32In 0 0x626F6F66 := by decide
theorem test_decode_wr32Out : decode (.bus 0x1A0000 7) = .wr32Out 0 7 := by decide
theorem test_decode_reservedSpace : decode (.bus 0x1BFFFF 7) = .reservedSpace true 2 0xFFFF 7 := by decide
theorem test_decode_badSize : decode (.bus 0x0C0000 7) = .badSize false 3 0 0 := by decide

/-- The table's numbering: 24 bits for a BUS row, 8, 16 or 32 for a CTRL row (log 10). -/
theorem test_decodeTableWord_tells_the_forms_apart :
    decodeTableWord 24 0x010000 = some (.rd8In 0) ∧ decodeTableWord 8 0x11 = some (.decodeRfc plain) ∧
    decodeTableWord 16 0x201 = some (.cmdBadFmt 0 2 plain) ∧ decodeTableWord 24 0x200000 = none := by decide

/-! ## Steps from reset -/

/-- Each row runs as the first instruction after reset. -/
theorem test_reset_runs_a_command : after (step (State.reset.withFetchWord 16 0x101)) (·.phase) = some .run := by decide
theorem test_reset_runs_a_buffer_word : after (step (State.reset.withFetchWord 24 0x1A0000)) (·.response) = some .written := by
  decide
theorem test_reset_runs_a_register_read :
    after (step (State.reset.withFetchWord 24 0x080004)) (·.response) = some (.read 0) := by decide
theorem test_reset_refuses_a_bad_size : busCause (step (State.reset.withFetchWord 24 0x040000)) = some .badSize := by decide

/-! ## Host transactions, spec/95_test_vectors.md section 2.7 (BUF_CAP = 64) -/

theorem test_rd32_capacity : after (exec (.rd32Reg 0x1C) (core 64)) (·.response) = some (.read 0x40) := by decide
theorem test_rd32_past_the_registers : busCause (exec (.rd32Reg 0x20) (core 64)) = some .reservedOffset := by decide
theorem test_rd8_status : busCause (exec (.rd8Reg 0x04) (core 64)) = some .registerSize := by decide
theorem test_wr8_ctrl : busCause (exec (.wr8Reg 0x00 1) (core 64)) = some .registerSize := by decide
theorem test_rd32_in_misaligned : busCause (exec (.rd32In 2) (core 64)) = some .misaligned := by decide
theorem test_rd8_in_at_capacity : busCause (exec (.rd8In 64) (core 64)) = some .pastBuffer := by decide
theorem test_wr32_out_last_word : after (exec (.wr32Out 60 7) (core 64)) (·.outBuf) = some [] := by decide
theorem test_wr8_out_ignored : after (exec (.wr8Out 0 0x41) (core 64)) (·.outBuf) = some [] := by decide
theorem test_rd8_out : after (exec (.rd8Out 2) (finished 64 foobarRfc)) (·.response) = some (.read 0x58) := by decide
theorem test_rd32_out : after (exec (.rd32Out 8) (finished 64 foobarRfc)) (·.response) = some (.read 0x3D3D494F) := by decide
theorem test_badSize_of_ctrl : busCause (exec (.badSize false 1 0 0) (core 64)) = some .badSize := by decide
theorem test_reserved_window : busCause (exec (.reservedSpace true 0 0 0) (core 64)) = some .reservedOffset := by decide
theorem test_wr32_in_lanes : after (exec (.wr32In 0 0x626F6F66) (core 64)) (fun t => (List.range 4).map t.inByte) =
    some [0x66, 0x6F, 0x6F, 0x62] := by decide
theorem test_wr8_in_lane : after (exec (.wr8In 1 0xFF41) (loaded 64 foobar)) (fun t => t.inWord 0) = some 0x626F4166 := by
  decide
theorem test_rd32_in : after (exec (.rd32In 0) (loaded 64 foobar)) (·.response) = some (.read 0x626F6F66) := by decide
theorem test_rd8_in : after (exec (.rd8In 5) (loaded 64 foobar)) (·.response) = some (.read 0x72) := by decide
theorem test_wr32_ctrl_config : after (exec (.wr32Reg 0x00 0xFFFFFFFE) (core 64)) (fun t => (t.ctrlView, t.phase)) =
    some (0x310, .idle) := by decide
theorem test_wr32_status_ignored : after (exec (.wr32Reg 0x04 0xFFFFFFFF) (core 64)) (·.statusView) = some 0 := by decide
theorem test_config : after (exec (.config 1 1 plain) (finished 64 fRfc)) (fun t => (t.ctrlView, t.statusView)) =
    some (0x110, 2) := by decide

/-! ## Commands, spec/95_test_vectors.md sections 2.3 to 2.6 and 3 -/

theorem test_encodeRfc : after (exec (.encodeRfc plain) (loaded 64 foobar)) (fun t => record t.engineTurn) =
    some ⟨0, 0, 0, 0, 16, foobarRfc⟩ := by decide
theorem test_encodeRfc_past_capacity : after (exec (.encodeRfc plain) (loaded 8 foobar)) (fun t => record t.engineTurn) =
    some ⟨6, 0, 0, 16, 0, []⟩ := by decide
/-- `CSQPYRK1E8`. -/
theorem test_encodeCrk : after (exec (.encodeCrk plain) (loaded 64 foobar)) (fun t => record t.engineTurn) =
    some ⟨0, 0, 0, 0, 10, [0x43, 0x53, 0x51, 0x50, 0x59, 0x52, 0x4B, 0x31, 0x45, 0x38]⟩ := by decide
theorem test_decodeRfc : after (exec (.decodeRfc plain) (loaded 64 foobarRfc)) (fun t => record t.engineTurn) =
    some ⟨0, 0, 0, 0, 6, foobar⟩ := by decide
/-- P3: the first `=` of `MY=Y====` is illegal, at position 3. -/
theorem test_decodeRfc_illegal : after (exec (.decodeRfc plain) (loaded 64 badRfc)) (fun t => record t.engineTurn) =
    some ⟨5, 0x3D, 3, 0, 0, []⟩ := by decide
/-- P2: `CS-QP-YRKIE8`. -/
theorem test_decodeCrk :
    after (exec (.decodeCrk plain) (loaded 64 [0x43, 0x53, 0x2D, 0x51, 0x50, 0x2D, 0x59, 0x52, 0x4B, 0x49, 0x45, 0x38]))
      (fun t => record t.engineTurn) = some ⟨0, 0, 0, 0, 6, foobar⟩ := by decide
/-- `C-u`: the hyphen counts in the position. -/
theorem test_decodeCrk_illegal : after (exec (.decodeCrk plain) (loaded 64 [0x43, 0x2D, 0x75])) (fun t => record t.engineTurn) =
    some ⟨5, 0x75, 3, 0, 0, []⟩ := by decide
theorem test_cmdBadFmt : after (exec (.cmdBadFmt 1 3 plain) (loaded 8 foobarRfc)) (fun t => record t.engineTurn) =
    some ⟨1, 0, 0, 3, 0, []⟩ := by decide
/-- `MZXW6Y==`: two trailing `=`. -/
theorem test_padding_rejected : decodeText .rfc [0x4D, 0x5A, 0x58, 0x57, 0x36, 0x59, 0x3D, 0x3D] =
    .failCount .invalidPadding 2 := by decide
/-- The ports of padding_validator, spec/95_test_vectors.md section 2.2: `m` is 0 unless OK. -/
theorem test_padding_ports :
    padGenPort 6 = 6 ∧ padGenPort 9 = 1 ∧ padCheckPort 16 6 = (.ok, 10) ∧ padCheckPort 8 0 = (.ok, 8) ∧
    padCheckPort 9 1 = (.invalidLength, 0) ∧ padCheckPort 8 8 = (.invalidPadding, 0) := by decide
/-- P1's WAIT: two polls read BUSY, the third DONE, then the final read 0x00000002. -/
theorem test_wait : (runHost [false, false, true, false] Pseudo.wait.expand (running (loaded 64 foobar) 0 0)).bind
    (after · (·.response)) = some (.read 2) := by decide
theorem test_wait_goes_on_while_busy :
    (runHost [false, false, false] Pseudo.wait.expand (running (loaded 64 foobar) 0 0)).isNone = true := by decide
/-- `MZ======`: the discarded bits are not checked. -/
theorem test_discarded_bits : decodeText .rfc [0x4D, 0x5A, 0x3D, 0x3D, 0x3D, 0x3D, 0x3D, 0x3D] = .ok [0x66] := by decide

/-! ## Hypotheses that are met: one theorem per obligation that has them, one conjunct per clause -/

/-- A core with ENCODE.RFC of `f` running; a completed one; one that completed with an error. -/
def busyF : State := running (loaded 64 [0x66]) 0 0
def doneF : State := busyF.engineTurn
def doneBad : State := (running (loaded 64 badRfc) 1 0).engineTurn

theorem test_meets_DecodeOfEncodeIsTheInstruction :
    (Instr.cmdBadFmt 1 2 plain).wf = true ∧ (Instr.reservedSpace true 2 0xFFFF 7).wf = true ∧
    (Instr.badSize false 3 0x3FFFF 0).wf = true := by decide

theorem test_meets_EncodeOfDecodeIsTheWire :
    (Wire.ctrl 0xFFFFFFFF).canonical = true ∧ (Wire.bus 0x0BFFFF 0).canonical = true ∧
    (Wire.bus 0x1BFFFF 7).canonical = true := by decide

theorem test_meets_CommandWordFallsInExactlyOneForm :
    (0xFFFFFFFE : Word).getLsbD 0 = false ∧ ctrlOp 0x001 = 0 ∧ ctrlFmt 0x001 = 0 ∧ ctrlOp 0x101 = 0 ∧ ctrlFmt 0x101 = 1 ∧
    ctrlOp 0x011 = 1 ∧ ctrlFmt 0x011 = 0 ∧ ctrlOp 0x111 = 1 ∧ ctrlFmt 0x111 = 1 ∧ (0x201 : Word).getLsbD 9 = true := by
  decide

theorem test_meets_StepRunsTheDecodedInstruction :
    (State.reset.withFetchWord 24 0x080004).inputs = [.wire (.bus 0x080004 0)] ∧ State.reset.inputs = [] ∧
    ({ State.reset with inputs := [.engine, .reset] } : State).inputs = .engine :: [.reset] ∧
    ({ State.reset with inputs := [.reset] } : State).inputs = .reset :: [] := by decide

theorem test_meets_FetchedTableWordRunsNext :
    decodeTableWord 24 0x1FFFFF = some (.badSize true 3 0x3FFFF 0) ∧ decodeTableWord 16 0x000 = some (.config 0 0 plain) := by
  decide

theorem test_meets_reset_obligations : Reg.ctrl ≠ Reg.capacity ∧ Reg.errCount ≠ Reg.capacity := by decide

theorem test_meets_legal_and_busy : busyF.Legal ∧ busyF.busy = true := by decide

theorem test_meets_idle : (core 64).busy = false ∧ busyF.busy = true ∧ (0 : Word).getLsbD 0 = false ∧
    (1 : Word).getLsbD 0 = true ∧ (0x04#16) ∈ [0x04#16, 0x0C#16, 0x10#16, 0x14#16, 0x18#16, 0x1C#16] := by decide

/-- A step that answers next, of each of the four kinds. -/
theorem test_meets_step_next :
    (∃ t, step (core 64) = .next t) ∧ (∃ t, step ({ busyF with inputs := [.engine] } : State) = .next t) ∧
    (∃ t, step ({ busyF with inputs := [.reset] } : State) = .next t) ∧
    (∃ t, step ((core 64).withFetchWord 16 0x001) = .next t) := ⟨⟨_, rfl⟩, ⟨_, rfl⟩, ⟨_, rfl⟩, ⟨_, rfl⟩⟩

/-- The last byte and the last word of a buffer, while a command runs. -/
theorem test_meets_WritesWhileBusyHaveNoEffect :
    busyF.busy = true ∧ (63#16).toNat < busyF.capacity ∧ (60#16).toNat % 4 = 0 ∧ (60#16).toNat + 3 < busyF.capacity := by
  decide

theorem test_meets_CompletionPublishesTheOutcome :
    (core 64).busy = false ∧ busyF.busy = true ∧ busyF.outcome = .ok fRfc ∧
    (running (loaded 64 badRfc) 1 0).busy = true ∧
    (running (loaded 64 badRfc) 1 0).outcome = .err .illegalCharacter ⟨0x3D, 3, 0⟩ := by decide

/-- The clauses of R230 at BUF_CAP = 8, each at a boundary. -/
theorem test_meets_CommandReportsTheFirstOutcomeThatApplies :
    (2#2).getLsbD 1 = true ∧ (3#2).getLsbD 1 = true ∧ (1#2).getLsbD 1 = false ∧
    8 < 9 ∧ 8 < encLen .rfc 6 ∧ encLen .rfc 5 ≤ 8 ∧ 8 < encLen .crk 6 ∧ encLen .crk 5 ≤ 8 ∧ 7 % 8 ≠ 0 ∧
    trailingEq [0x4D, 0x5A, 0x58, 0x57, 0x36, 0x59, 0x3D, 0x3D] = 2 ∧
    trailingEq badRfc = 4 ∧ (decMap .rfc (badRfc.getD 2 0) = none ∧ skips .rfc (badRfc.getD 2 0) = false) ∧
    (∀ j, j < 2 → (decMap .rfc (badRfc.getD j 0)).isSome = true) ∧
    (∀ j, j < 8 - trailingEq fRfc → (decMap .rfc (fRfc.getD j 0)).isSome = true) ∧
    (decMap .crk 0x75 = none ∧ skips .crk 0x75 = false ∧ skips .crk 0x2D = true) := by decide

theorem test_meets_encode_results :
    (loaded 8 []).busy = false ∧ (loaded 8 (List.replicate 9 0)).capacity < (loaded 8 (List.replicate 9 0)).inLen.toNat ∧
    (loaded 8 foobar).inLen.toNat ≤ 8 ∧ 8 < 8 * (((loaded 8 foobar).inLen.toNat + 4) / 5) ∧
    8 < (8 * (loaded 8 foobar).inLen.toNat + 4) / 5 ∧
    8 * (((loaded 8 [1, 2, 3, 4, 5]).inLen.toNat + 4) / 5) ≤ 8 ∧ (8 * (loaded 8 [1, 2, 3, 4, 5]).inLen.toNat + 4) / 5 ≤ 8 := by
  decide

theorem test_meets_decode_results :
    (loaded 8 fRfc).busy = false ∧ (loaded 8 fRfc).inLen.toNat ≤ (loaded 8 fRfc).capacity ∧
    decodeText .rfc ((List.range 8).map (loaded 8 fRfc).inByte) = .ok [0x66] ∧
    decodeText .rfc ((List.range 8).map (loaded 8 badRfc).inByte) = .err .illegalCharacter ⟨0x3D, 3, 0⟩ ∧
    decodeText .crk ((List.range 2).map (loaded 8 [0x43, 0x52]).inByte) = .ok [0x66] ∧
    decodeText .crk ((List.range 2).map (loaded 8 [0x43, 0x55]).inByte) = .err .illegalCharacter ⟨0x55, 2, 0⟩ := by decide

theorem test_meets_ReservedFormatCompletesWithInvalidOption :
    (core 8).busy = false ∧ (2#2).getLsbD 1 = true ∧ (3#2).getLsbD 1 = true := by decide

theorem test_meets_ReservedErrorCodesAreNeverProduced :
    doneBad.err ≠ 2 ∧ doneBad.err.toNat < 7 ∧ (core 8).err ≠ 2 ∧ (core 8).err.toNat < 7 := by decide

/-- Two states that differ in the answer and in a byte past IN_LEN. -/
theorem test_meets_OutcomeDependsOnlyOnTheOperands :
    (loaded 64 [0x66]).inLen = ({ loaded 64 [0x66] with inBuf := [(0, 0x66), (1, 7)], response := .written } : State).inLen ∧
    (∀ i, i < 1 → (loaded 64 [0x66]).inByte i =
      ({ loaded 64 [0x66] with inBuf := [(0, 0x66), (1, 7)], response := .written } : State).inByte i) ∧
    (running (core 64) 0 2).fmt = (running (loaded 8 foobar) 0 2).fmt ∧ (running (core 64) 0 2).fmt.getLsbD 1 = true := by
  decide

theorem test_meets_OperandsAreFrozenWhileBusy :
    busyF.busy = true ∧
    ∃ t, runWires [.bus 0x180000 0x111, .bus 0x180008 9, .bus 0x110000 7, .bus 0x020000 0] busyF = .next t :=
  ⟨rfl, _, rfl⟩

theorem test_meets_ResultIsReadableOnceDone :
    busyF.busy = true ∧ busyF.outcome = .ok fRfc ∧ (7#16).toNat < fRfc.length ∧ (7#16).toNat < busyF.capacity := by decide

/-- The last byte; the first index past OUT_LEN; a byte while a command runs. -/
theorem test_meets_ByteReadReturnsTheByteOrADraw :
    (63#16).toNat < doneF.capacity ∧ doneF.Legal ∧ doneF.outLen.toNat ≤ (8#16).toNat ∧ busyF.Legal ∧ busyF.busy = true :=
  ⟨by decide, by decide, by decide, by decide, by decide⟩

theorem test_meets_buffer_writes :
    (core 64).busy = false ∧ busyF.busy = true ∧ (core 64).capacity = 64 ∧ (63#16).toNat < 64 ∧
    (60#16).toNat % 4 = 0 ∧ (60#16).toNat + 3 < 64 := by decide

/-- A state and a later one between which only reads stand; a defined byte and a word of four defined bytes. -/
theorem test_meets_ReadsHaveNoSideEffects :
    reads (.rd32Reg 0x04) = true ∧ reads (.rd32Out 4) = true ∧
    (∃ t, exec (.rd32Reg 0x04) doneF = .next t ∧ doneF.sameButAnswer t ∧ ∃ u, exec (.rd32Reg 0x04) t = .next u) ∧
    (∃ t, exec (.rd8Out 63) (core 64) = .next t) ∧
    (doneF.outBuf.read? (7#16).toNat).isSome = true ∧ (∃ t, exec (.rd8Out 7) doneF = .next t ∧ doneF.sameButAnswer t) ∧
    (∀ k, k < 4 → (doneF.outBuf.read? ((4#16).toNat + k)).isSome = true) ∧
    (∃ t, exec (.rd32Out 4) doneF = .next t ∧ doneF.sameButAnswer t ∧ ∃ u, exec (.rd32Out 4) t = .next u) :=
  ⟨rfl, rfl, ⟨_, rfl, rfl, _, rfl⟩, ⟨_, rfl⟩, by decide, ⟨_, rfl, rfl⟩, by decide, ⟨_, rfl, rfl, _, rfl⟩⟩

/-- Next states of InBufChangesOnlyByAcceptedWritesOrReset and of HostNeverWritesOutBuf, each way that they can come. -/
theorem test_meets_exec_next :
    (∃ t, exec (.wr8In 63 7) (core 64) = .next t) ∧ (∃ t, exec (.wr32In 60 7) (core 64) = .next t) ∧
    (∃ t, exec (.wr8Out 63 7) (core 64) = .next t) ∧ (∃ t, exec (.encodeRfc plain) doneF = .next t) ∧
    (∃ t, step ((core 64).withFetchWord 24 0x11003F) = .next t ∧ t.inBuf = [(63, 0)]) ∧
    (∃ t, step ({ loaded 64 foobar with inputs := [.reset] } : State) = .next t ∧ t.inBuf = []) :=
  ⟨⟨_, rfl⟩, ⟨_, rfl⟩, ⟨_, rfl⟩, ⟨_, rfl⟩, ⟨_, rfl, rfl⟩, ⟨_, rfl, rfl⟩⟩

/-- Both sides of every boundary of the map. -/
theorem test_meets_BusErrorExactlyWhenTheMapRefuses :
    accepts 64 (.rd32Reg 0x1C) = true ∧ accepts 64 (.rd32Reg 0x20) = false ∧ accepts 64 (.wr32Reg 0x1D 0) = false ∧
    accepts 64 (.rd8In 63) = true ∧ accepts 64 (.rd8In 64) = false ∧ accepts 64 (.wr32Out 60 0) = true ∧
    accepts 64 (.wr32Out 61 0) = false ∧ accepts 64 (.rd32In 64) = false := by decide

theorem test_meets_WindowIsFortyThousandHexBytes :
    windowOffset? (physicalAddress 0x00000) = some 0x00000 ∧ windowOffset? (physicalAddress 0x3FFFF) = some 0x3FFFF := by
  simp [windowOffset?, physicalAddress]

/-- `O` in Crockford, `a` in RFC4648. -/
theorem test_meets_TablesAreInverseOnCanonicalSymbols :
    decMap .crk 0x4F = some 0 ∧ 0x4F ∉ encRom .crk ∧ decMap .rfc 0x61 = some 0 ∧ 0x61 ∉ encRom .rfc := by decide

theorem test_meets_PaddingCompletesTheLastGroup :
    0 % 5 = 0 ∧ 6 % 5 = 1 ∧ 7 % 5 = 2 ∧ 8 % 5 = 3 ∧ 9 % 5 = 4 := by decide

theorem test_meets_TrailingCountIsTheGreatest : 6 ≤ fRfc.length ∧ ∀ b ∈ fRfc.drop (fRfc.length - 6), b = 0x3D := by decide

theorem test_meets_PadCheckAcceptsTheGeneratedCounts :
    padCheck 7 0 = .invalidLength ∧ padCheck 8 2 = .invalidPadding ∧ padCheck 8 5 = .invalidPadding ∧
    padCheck 8 7 = .invalidPadding ∧ padCheck 8 8 = .invalidPadding ∧ padCheck 8 0 = .ok 8 ∧ padCheck 8 1 = .ok 7 ∧
    padCheck 8 3 = .ok 5 ∧ padCheck 8 4 = .ok 4 ∧ padCheck 8 6 = .ok 2 ∧ padCheck 16 6 = .ok 10 := by decide

theorem test_meets_GroupedEncoderComputesEncode : ([0xFF, 0xFF, 0xFF, 0xFF, 0xFF] : List Byte).length ≤ 5 := by decide

/-- The last value before the accumulator is full. -/
theorem test_meets_AccumulatorDecoderComputesDecode :
    let dp : Datapath := ⟨0x7FFFFFFFF, 35, 0, 0, 0⟩
    dp.nbits.val % 5 = 0 ∧ dp.nbits.val < 40 ∧ dp.acc.toNat < 2 ^ dp.nbits.val := by decide

theorem test_meets_DecodeHasItsLength :
    decodeText .rfc fRfc = .ok [0x66] ∧ decodeText .rfc foobarRfc = .ok foobar ∧ decodeText .crk [0x2D, 0x43, 0x52] = .ok [0x66] := by
  decide

/-- `MY======` and `MZ======` (R167): the same 8 bits, other discarded bits; `CR` and `C-S` in Crockford. -/
theorem test_meets_DiscardedBitsAreNotChecked :
    let mz : List Byte := [0x4D, 0x5A, 0x3D, 0x3D, 0x3D, 0x3D, 0x3D, 0x3D]
    fRfc.length = mz.length ∧ trailingEq fRfc = trailingEq mz ∧ padCheck mz.length (trailingEq mz) = .ok 2 ∧
    scanFrom .rfc 0 (fRfc.take (fRfc.length - trailingEq fRfc)) = .values [12, 24] ∧
    scanFrom .rfc 0 (mz.take (mz.length - trailingEq mz)) = .values [12, 25] ∧
    (([12, 24] : List (BitVec 5)).flatMap bits5).take 8 = (([12, 25] : List (BitVec 5)).flatMap bits5).take 8 ∧
    scanFrom .crk 0 [0x43, 0x52] = .values [12, 24] ∧ scanFrom .crk 0 [0x43, 0x2D, 0x53] = .values [12, 25] := by decide

/-- `OL` and `01`; `C-R` and `CR`. -/
theorem test_meets_DecodeIgnoresCaseAliasesAndSeparators :
    List.Forall₂ (fun a b => b = a ∨ b = unalias a) [0x4F, 0x4C] [0x30, 0x31] ∧
    ([0x43, 0x2D, 0x52] : List Byte).filter (· ≠ 0x2D) = ([0x43, 0x52] : List Byte).filter (· ≠ 0x2D) ∧
    decodeText .crk [0x43, 0x2D, 0x52] = .ok [0x66] := by
  refine ⟨.cons (by decide) (.cons (by decide) .nil), by decide, by decide⟩

/-- Legal states of every kind, and a step from one. -/
theorem test_meets_EveryStepKeepsTheStateLegal :
    (core 8).Legal ∧ busyF.Legal ∧ doneF.Legal ∧ doneBad.Legal ∧ ∃ t, step busyF = .next t :=
  ⟨by decide, by decide, by decide, by decide, _, rfl⟩

theorem test_meets_StatusInvariants :
    busyF.busy = true ∧ busyF.done = false ∧ busyF.err = 0 ∧ ∃ t, step ({ busyF with inputs := [.reset] } : State) = .next t :=
  ⟨rfl, rfl, rfl, _, rfl⟩

theorem test_meets_AcceptedInputsNeverStopTheMachine :
    let s : State := { busyF with inputs := [.wire (.bus 0x080004 0), .wire (.ctrl 0x111), .engine, .reset] }
    ∀ x ∈ s.inputs, x.accepted s.capacity = true := by decide

/-- A reset after the engine's turn; no engine turn at all; no input at all. -/
theorem test_meets_EveryCommandCompletes :
    let pre : List Input := [.wire (.bus 0x080004 0), .wire (.ctrl 0x111)]
    let s : State := { busyF with inputs := pre ++ [.engine, .reset] }
    let s' : State := { busyF with inputs := pre ++ [] }
    s.busy = true ∧ s.inputs = pre ++ .engine :: [.reset] ∧ s'.inputs = pre ++ [] ∧ busyF.inputs = [] ++ [] ∧
    (∀ x ∈ pre, x.accepted s.capacity = true) ∧ .reset ∉ pre := by decide

theorem test_meets_EncodedBufferDecodesToTheData :
    (loaded 64 [0x66]).busy = false ∧ (loaded 64 [0x66]).Legal ∧ (loaded 64 fRfc).capacity = (loaded 64 [0x66]).capacity ∧
    doneF.err = 0 ∧ (loaded 64 fRfc).inLen = doneF.outLen ∧
    ∀ i, i < 8 → doneF.outBuf.read? i = some ((loaded 64 fRfc).inByte i) := by decide

/-- A sequence that fills the buffer; a running, a completed and a never started command; a WAIT that ends. -/
theorem test_meets_PseudoInstructionsMeanTheirExpansions :
    (core 8).busy = false ∧ (core 8).capacity ≤ 65536 ∧ fRfc.length ≤ (core 8).capacity ∧
    fRfc.length < (List.replicate 9 true).length ∧ (busyF.busy = true ∧ busyF.done = false) ∧
    (doneF.busy = false ∧ doneF.done = true) ∧ ((core 8).busy = false ∧ (core 8).done = false) ∧
    ∃ o, runHost [false, true, false] Pseudo.wait.expand busyF = some o :=
  ⟨rfl, by decide, by decide, by decide, by decide, by decide, by decide, _, rfl⟩

end Sys2Proof.Tests
end

section
/-! PROOFS. The family of spec/10_state.md: what a step can do to the three flags (R40), the STATUS invariants that
follow from it (R27), and the size-4 reads of the eight registers (R191). -/

namespace Sys2Proof.Machine

/-! ## The flags -/

/-- Storing an IN_BUF word (R201) leaves the flags as they are. -/
theorem setInWord_flags (i : Nat) (w : Word) (s : State) :
    (s.setInWord i w).busy = s.busy ∧ (s.setInWord i w).done = s.done ∧ (s.setInWord i w).err = s.err := by
  simp [State.setInWord]

/-- A START is the only effect of a transaction that writes the flags. -/
theorem Effect.flags {i : Instr} {s u : State} (h : Effect i s u) :
    (u.busy = s.busy ∧ u.done = s.done ∧ u.err = s.err) ∨
      (starts i = true ∧ s.busy = false ∧ u.busy = true ∧ u.done = false ∧ u.err = 0) := by
  cases h with
  | quiet k => exact .inl ⟨rfl, rfl, rfl⟩
  | config idle op fmt => exact .inl ⟨rfl, rfl, rfl⟩
  | start idle hs op fmt => exact .inr ⟨hs, idle, rfl, rfl, rfl⟩
  | inLen idle w => exact .inl ⟨rfl, rfl, rfl⟩
  | inByte idle idx w hi h => exact .inl ⟨rfl, rfl, rfl⟩
  | inWord idle idx w hi h => exact .inl (setInWord_flags idx.toNat w s)

/-- The answer writes no flag, so an accepted transaction does to them what its effect does. -/
theorem exec_next_flags {i : Instr} {s t : State} (h : exec i s = .next t) :
    (t.busy = s.busy ∧ t.done = s.done ∧ t.err = s.err) ∨
      (starts i = true ∧ s.busy = false ∧ t.busy = true ∧ t.done = false ∧ t.err = 0) := by
  obtain ⟨u, r, he, rfl⟩ := exec_next_effect h
  exact he.flags

/-- Completion clears BUSY and sets DONE, whatever the outcome (R197). -/
theorem publish_busy_done (r : Result) (s : State) : (s.publish r).busy = false ∧ (s.publish r).done = true := by
  cases r with
  | ok bytes => exact ⟨rfl, rfl⟩
  | err kind ctx => exact ⟨rfl, rfl⟩

/-- An engine turn keeps the flags of an idle core, and completes a running command (R196). -/
theorem engineTurn_flags (s : State) :
    (s.engineTurn.busy = s.busy ∧ s.engineTurn.done = s.done ∧ s.engineTurn.err = s.err) ∨
      (s.busy = true ∧ s.engineTurn.busy = false ∧ s.engineTurn.done = true) := by
  cases hb : s.busy with
  | false =>
    rw [engineTurn_of_idle hb]
    exact .inl ⟨hb, rfl, rfl⟩
  | true =>
    rw [engineTurn_of_busy hb]
    exact .inr ⟨rfl, publish_busy_done s.outcome s⟩

/-- Settles O37: each of the four ways a step can go writes the flags as its own disjunct says, or keeps them. -/
theorem flagsAreWrittenOnlyByStartCompletionAndReset : Obligations.FlagsAreWrittenOnlyByStartCompletionAndReset := by
  intro s t h
  obtain ⟨w, rest, hin, hx⟩ | ⟨rest, hin, rfl⟩ | ⟨rest, hin, rfl⟩ | ⟨hin, rfl⟩ := step_next_cases h
  · exact (exec_next_flags hx).imp_right fun hstart => .inl ⟨w, rest, hin, hstart⟩
  · exact (engineTurn_flags (s.setInputs rest)).imp_right fun ⟨hbusy, hdone⟩ =>
      .inr (.inl ⟨hbusy, .inr ⟨rest, hin⟩, hdone⟩)
  · exact .inr (.inr (.inr ⟨rest, hin, rfl, rfl, rfl⟩))
  · exact (engineTurn_flags s).imp_right fun ⟨hbusy, hdone⟩ => .inr (.inl ⟨hbusy, .inl hin, hdone⟩)

/-- A START, a completion and a reset each leave flags that meet R27; a step that writes none keeps it. -/
theorem step_keeps_busy_clears_status {s t : State} (h : step s = .next t)
    (hs : s.busy = true → s.done = false ∧ s.err = 0) : t.busy = true → t.done = false ∧ t.err = 0 := by
  intro ht
  obtain ⟨hb, hd, he⟩ | ⟨_, _, _, _, _, _, hd, he⟩ | ⟨_, _, hb, _⟩ | ⟨_, _, _, hd, he⟩ :=
    flagsAreWrittenOnlyByStartCompletionAndReset s t h
  · rw [hd, he]
    exact hs (hb.symm.trans ht)
  · exact ⟨hd, he⟩
  · simp [hb] at ht
  · exact ⟨hd, he⟩

/-- BUSY and DONE are both 0 after a step only if they were before it, or by reset (R27): a START sets BUSY and a
completion sets DONE. -/
theorem step_idle_not_done {s t : State} (h : step s = .next t) (htb : t.busy = false) (htd : t.done = false) :
    (s.busy = false ∧ s.done = false) ∨ ∃ rest, s.inputs = .reset :: rest := by
  obtain ⟨hb, hd, _⟩ | ⟨_, _, _, _, _, hb, _⟩ | ⟨_, _, _, hd⟩ | ⟨rest, hin, _⟩ :=
    flagsAreWrittenOnlyByStartCompletionAndReset s t h
  · exact .inl ⟨hb.symm.trans htb, hd.symm.trans htd⟩
  · simp [hb] at htb
  · simp [hd] at htd
  · exact .inr ⟨rest, hin⟩

/-- Settles O56, from O37: the flags that a START, a completion and a reset write meet R27. -/
theorem statusInvariants : Obligations.StatusInvariants :=
  ⟨⟨rfl, rfl⟩, fun _ _ => step_keeps_busy_clears_status, fun _ _ => step_idle_not_done⟩

/-! ## Register reads -/

/-- A size-4 read of a register answers with the register's value and changes nothing else (R191). -/
theorem exec_rd32Reg_offset (r : Reg) (s : State) :
    exec (.rd32Reg r.offset) s = .next { s with response := .read (s.readReg r) } := by
  simp only [exec, execRd32Reg, regAt?_offset, State.respond]

/-- ERR_BYTE reads as its byte under 24 zeros (R31). -/
theorem readReg_errByte (s : State) : s.readReg .errByte = 0#24 ++ s.errByte :=
  BitVec.setWidth_eq_append (by decide)

/-- Settles O10: the read of each register, at its offset in the map (R51). -/
theorem registerReadsReturnTheirLayouts : Obligations.RegisterReadsReturnTheirLayouts := fun s =>
  ⟨exec_rd32Reg_offset .ctrl s, exec_rd32Reg_offset .status s, exec_rd32Reg_offset .inLen s,
    exec_rd32Reg_offset .outLen s, readReg_errByte s ▸ exec_rd32Reg_offset .errByte s, exec_rd32Reg_offset .errPos s,
    exec_rd32Reg_offset .errCount s, exec_rd32Reg_offset .capacity s⟩

end Sys2Proof.Machine
end

section
/-! PROOFS. The family of spec/40_symbol_mapper.md: the tables are inverse on the canonical symbols (R108), and the
size of the decode tables and their case law (R104, R109). Both lookups see a byte only through its upper-case form. -/

namespace Sys2Proof.Machine

/-- Settles O41: a canonical symbol looks up to its value, so the symbol of a valid byte's value is canonical, which the
byte is not. -/
theorem tablesAreInverseOnCanonicalSymbols : Obligations.TablesAreInverseOnCanonicalSymbols := by
  refine ⟨fun f v => (encMap_facts f v).1, fun f c v _ hc => ?_⟩
  obtain ⟨hlookup, _, _, hmem⟩ := encMap_facts f v
  exact ⟨hmem, ne_of_mem_of_not_mem hmem hc, hlookup⟩

/-! ## The decode tables as ROMs -/

@[simp] theorem length_decRom (f : Format) : (decRom f).length = 256 := by simp [decRom]

theorem decRom_getElem? (f : Format) (c : Byte) : (decRom f)[c.toNat]? = some (decMap f c) := by
  simp [decRom, List.getElem?_range c.isLt]

/-- The two cases of 26 letters and the six digits 2 to 7 (R102). -/
theorem valid_entries_rfc : ((decRom .rfc).filter (·.isSome)).length = 58 := by decide

/-- The ten digits and the two cases of 25 letters, without U (R103). -/
theorem valid_entries_crk : ((decRom .crk).filter (·.isSome)).length = 60 := by decide

/-! ## The case law -/

theorem toNat_foldCase (c : Byte) :
    (foldCase c).toNat = if 0x61 ≤ c.toNat ∧ c.toNat ≤ 0x7A then c.toNat - 0x20 else c.toNat := by
  unfold foldCase
  split
  · bv_omega
  · rfl

theorem toNat_flipCase (c : Byte) :
    (flipCase c).toNat =
      if 0x41 ≤ c.toNat ∧ c.toNat ≤ 0x5A then c.toNat + 0x20
      else if 0x61 ≤ c.toNat ∧ c.toNat ≤ 0x7A then c.toNat - 0x20 else c.toNat := by
  unfold flipCase
  split
  · bv_omega
  · split
    · bv_omega
    · rfl

@[simp] theorem foldCase_foldCase (c : Byte) : foldCase (foldCase c) = foldCase c := by
  apply BitVec.eq_of_toNat_eq
  grind [toNat_foldCase]

@[simp] theorem foldCase_flipCase (c : Byte) : foldCase (flipCase c) = foldCase c := by
  apply BitVec.eq_of_toNat_eq
  grind [toNat_foldCase, toNat_flipCase]

/-- DEC_RFC gives a lower-case letter the value of its upper-case form (R102). -/
theorem decRfc_foldCase (c : Byte) : decRfc (foldCase c) = decRfc c := by
  by_cases hl : 0x61 ≤ c.toNat ∧ c.toNat ≤ 0x7A
  · have hfold : (foldCase c).toNat = c.toNat - 0x20 := by rw [toNat_foldCase, if_pos hl]
    have hupper : 0x41 ≤ c.toNat - 0x20 ∧ c.toNat - 0x20 ≤ 0x5A := by omega
    have hc : ¬(0x41 ≤ c.toNat ∧ c.toNat ≤ 0x5A) := by omega
    simp only [decRfc, hfold, if_pos hupper, if_neg hc, if_pos hl, Nat.sub_sub]
  · rw [foldCase, if_neg hl]

/-- DEC_CRK is a function of the upper-case form (R103). -/
theorem decCrk_foldCase (c : Byte) : decCrk (foldCase c) = decCrk c := by
  simp only [decCrk, foldCase_foldCase]

theorem decMap_foldCase (f : Format) (c : Byte) : decMap f (foldCase c) = decMap f c :=
  match f with
  | .rfc => decRfc_foldCase c
  | .crk => decCrk_foldCase c

/-- The case law (R109): a byte and its case-flipped byte have one upper-case form. -/
theorem decMap_flipCase (f : Format) (c : Byte) : decMap f (flipCase c) = decMap f c := by
  rw [← decMap_foldCase f (flipCase c), foldCase_flipCase, decMap_foldCase]

/-- Settles O42: the sizes and the valid entries of the two tables, an entry as a lookup, and the case law. -/
theorem decodeTablesHaveTheirValidEntries : Obligations.DecodeTablesHaveTheirValidEntries :=
  ⟨length_decRom, valid_entries_rfc, valid_entries_crk, decRom_getElem?, fun f c => (decMap_flipCase f c).symm⟩

end Sys2Proof.Machine
end

section
/-! PROOFS. The family of spec/41_padding_validator.md: the generated pad counts and their port (R120, R121, R128), and
the verdicts of the padding check on lengths and on its port (R124 to R126, R129, R130). -/

namespace Sys2Proof.Machine

/-! ## Padding generation -/

/-- A pad count fits the 3 bits of the port (R120). -/
theorem padGen_le (n : Nat) : padGen n ≤ 6 := by
  have := padGen_cases n
  omega

@[simp] theorem toNat_padGenPort (w : Word) : (padGenPort w).toNat = padGen w.toNat :=
  Nat.mod_eq_of_lt (by have := padGen_le w.toNat; omega)

/-- Symbols and padding together fill the last group of 8 (R121). -/
theorem symbols_add_padGen_mod (n : Nat) : ((8 * n + 4) / 5 + padGen n) % 8 = 0 := by
  have := padGen_cases n
  omega

/-- Settles O43: the five cases of the pad count, the full last group, and the port's 3 bits. -/
theorem paddingCompletesTheLastGroup : Obligations.PaddingCompletesTheLastGroup := by
  intro n
  have hcases := padGen_cases n
  exact ⟨by omega, by omega, by omega, by omega, by omega, symbols_add_padGen_mod n,
    fun w hw => hw ▸ toNat_padGenPort w⟩

/-- The generated pad counts (R130): the data lengths 0, 4, 3, 2 and 1 generate 0, 1, 3, 4 and 6. -/
theorem exists_padGen_eq_iff (p : Nat) : (∃ n, padGen n = p) ↔ p = 0 ∨ p = 1 ∨ p = 3 ∨ p = 4 ∨ p = 6 := by
  constructor
  · rintro ⟨n, rfl⟩
    have := padGen_cases n
    omega
  · rintro (rfl | rfl | rfl | rfl | rfl)
    exacts [⟨0, rfl⟩, ⟨4, rfl⟩, ⟨3, rfl⟩, ⟨2, rfl⟩, ⟨1, rfl⟩]

/-! ## The verdicts of the padding check -/

/-- The length is checked first, whatever the padding is (R124). -/
theorem padCheck_of_length {len : Nat} (p : Nat) (hlen : len % 8 ≠ 0) : padCheck len p = .invalidLength :=
  if_pos hlen

theorem padCheck_of_padding {len p : Nat} (hlen : len % 8 = 0) (hp : p > 6 ∨ p = 2 ∨ p = 5 ∨ p = 7) :
    padCheck len p = .invalidPadding := by
  rw [padCheck, if_neg (not_not_intro hlen), if_pos hp]

theorem padCheck_of_accepted {len p : Nat} (hlen : len % 8 = 0) (hp : p = 0 ∨ p = 1 ∨ p = 3 ∨ p = 4 ∨ p = 6) :
    padCheck len p = .ok (len - p) := by
  rw [padCheck, if_neg (not_not_intro hlen), if_neg (by omega)]

/-- The verdict OK, inverted: every other length and every other count is refused (R124 to R126). -/
theorem padCheck_eq_ok_iff (len p m : Nat) :
    padCheck len p = .ok m ↔ len % 8 = 0 ∧ (p = 0 ∨ p = 1 ∨ p = 3 ∨ p = 4 ∨ p = 6) ∧ len - p = m := by
  by_cases hlen : len % 8 = 0
  · by_cases hp : p > 6 ∨ p = 2 ∨ p = 5 ∨ p = 7
    · have hrefused : ¬(p = 0 ∨ p = 1 ∨ p = 3 ∨ p = 4 ∨ p = 6) := by omega
      simp [padCheck_of_padding hlen hp, hrefused]
    · have haccepted : p = 0 ∨ p = 1 ∨ p = 3 ∨ p = 4 ∨ p = 6 := by omega
      simp [padCheck_of_accepted hlen haccepted, hlen, haccepted]
  · simp [padCheck_of_length p hlen, hlen]

/-- The accepted pad counts are exactly the generated ones (R130). -/
theorem exists_padGen_eq_iff_padCheck_ok (p : Nat) : (∃ n, padGen n = p) ↔ ∃ m, padCheck 8 p = .ok m := by
  simp [exists_padGen_eq_iff, padCheck_eq_ok_iff]

/-- The symbol counts of an accepted text (R130). -/
theorem symbols_mod_of_padCheck_ok {len p m : Nat} (hle : p ≤ len) (h : padCheck len p = .ok m) :
    (p = 0 ∧ m % 8 = 0) ∨ (p = 1 ∧ m % 8 = 7) ∨ (p = 3 ∧ m % 8 = 5) ∨ (p = 4 ∧ m % 8 = 4) ∨ (p = 6 ∧ m % 8 = 2) := by
  obtain ⟨hlen, hp, rfl⟩ := (padCheck_eq_ok_iff len p m).mp h
  omega

/-! ## The port of the padding check -/

theorem padCheckPort_eq {l p : Word} {v : Verdict} (h : padCheck l.toNat p.toNat = v) :
    padCheckPort l p = (v.code, BitVec.ofNat 32 v.symbols) := by
  rw [padCheckPort, h]

/-- The symbol count of a text in 32 bits: a trailing count within the length does not wrap. -/
theorem ofNat_toNat_sub {l p : Word} (h : p.toNat ≤ l.toNat) : BitVec.ofNat 32 (l.toNat - p.toNat) = l - p := by
  bv_omega

/-- The port's verdicts at 32 bits, with `m` 0 unless OK (R120, R129). -/
theorem padCheckPort_verdicts (l p : Word) :
    (l.toNat % 8 ≠ 0 → padCheckPort l p = (.invalidLength, 0)) ∧
    (l.toNat % 8 = 0 → (p.toNat > 6 ∨ p = 2 ∨ p = 5 ∨ p = 7) → padCheckPort l p = (.invalidPadding, 0)) ∧
    (l.toNat % 8 = 0 → p.toNat ≤ l.toNat → (p = 0 ∨ p = 1 ∨ p = 3 ∨ p = 4 ∨ p = 6) →
      padCheckPort l p = (.ok, l - p)) := by
  refine ⟨fun hlen => ?_, fun hlen hp => ?_, fun hlen hle hp => ?_⟩
  · exact padCheckPort_eq (padCheck_of_length _ hlen)
  · exact padCheckPort_eq (padCheck_of_padding hlen (by bv_omega))
  · rw [padCheckPort_eq (padCheck_of_accepted hlen (by bv_omega)), ← ofNat_toNat_sub hle]
    rfl

/-- Settles O45: the three verdicts on lengths and on the port, and the counts that the verdict OK admits. -/
theorem padCheckAcceptsTheGeneratedCounts : Obligations.PadCheckAcceptsTheGeneratedCounts :=
  ⟨fun _ p => ⟨padCheck_of_length p, padCheck_of_padding, padCheck_of_accepted⟩, padCheckPort_verdicts,
    exists_padGen_eq_iff_padCheck_ok, fun _ _ _ => symbols_mod_of_padCheck_ok⟩

end Sys2Proof.Machine
end

section
/-! PROOFS. The family of spec/42_encoder.md: the length laws of encode (R148), its output alphabet (R149), and the two
encode commands from their START to what they show at completion (R146, R147). -/

namespace Sys2Proof.Machine

/-! ## The length of a text -/

/-- The length law of both formats (R148): `encLen`, which the capacity check compares, is the length of the text. In
RFC4648 the padding fills the last group of 8. -/
@[simp] theorem length_encodeText (f : Format) (d : List Byte) : (encodeText f d).length = encLen f d.length := by
  rw [encodeText, List.length_append, length_encodeSymbols]
  cases f with
  | rfc =>
    have hpad := padGen_cases d.length
    simp only [encodePadding, List.length_replicate, symbolCount, encLen]
    omega
  | crk => rfl

theorem encodeText_nil (f : Format) : encodeText f [] = [] :=
  List.eq_nil_of_length_eq_zero (by rw [length_encodeText]; cases f <;> rfl)

/-- Settles O46: the length law at each format, and the empty data. -/
theorem encodeHasItsLength : Obligations.EncodeHasItsLength := by
  refine fun d => ⟨length_encodeText .crk d, length_encodeText .rfc d, ?_⟩
  rintro rfl
  exact ⟨encodeText_nil .crk, encodeText_nil .rfc⟩

/-! ## The alphabet of a text -/

/-- A canonical symbol is not `=`, not `-` and no lower-case letter (R101). -/
theorem canonical_symbol_facts (f : Format) :
    ∀ c ∈ encRom f, c ≠ padByte ∧ c ≠ hyphen ∧ ¬(0x61 ≤ c.toNat ∧ c.toNat ≤ 0x7A) := by
  cases f <;> decide

theorem mem_encRom_of_mem_encodeSymbols {f : Format} {d : List Byte} {c : Byte} (hc : c ∈ encodeSymbols f d) :
    c ∈ encRom f := by
  rw [encodeSymbols_eq] at hc
  obtain ⟨v, _, rfl⟩ := List.mem_map.mp hc
  obtain ⟨_, _, _, hmem⟩ := encMap_facts f v
  exact hmem

/-- Padding is `=`, in RFC4648 only (R144). -/
theorem mem_encodePadding {f : Format} {n : Nat} {c : Byte} (hc : c ∈ encodePadding f n) : f = .rfc ∧ c = padByte := by
  cases f with
  | rfc => exact ⟨rfl, List.eq_of_mem_replicate hc⟩
  | crk => cases hc

/-- A byte of a text is a canonical symbol or RFC4648 padding (R149). -/
theorem mem_encodeText {f : Format} {d : List Byte} {c : Byte} (hc : c ∈ encodeText f d) :
    c ∈ encRom f ∨ f = .rfc ∧ c = padByte :=
  (List.mem_append.mp hc).imp mem_encRom_of_mem_encodeSymbols mem_encodePadding

/-- Settles O47: a Crockford text has no padding, an RFC4648 text is its symbols and then its padding, and neither a
canonical symbol nor `=` is `-` or a lower-case letter. -/
theorem encodeProducesCanonicalSymbols : Obligations.EncodeProducesCanonicalSymbols := by
  refine fun d => ⟨fun c hc => ?_, ⟨encodeSymbols .rfc d, encodePadding .rfc d.length, rfl, ?_, ?_⟩, fun f c hc => ?_⟩
  · obtain hsym | ⟨hf, _⟩ := mem_encodeText hc
    · exact ⟨hsym, (canonical_symbol_facts .crk c hsym).1⟩
    · cases hf
  · exact fun c => mem_encRom_of_mem_encodeSymbols
  · exact fun c hc => (mem_encodePadding hc).2
  · obtain hsym | ⟨_, rfl⟩ := mem_encodeText hc
    · exact (canonical_symbol_facts f c hsym).2
    · decide

/-! ## A command from START to completion -/

/-- The state in which an idle core leaves an accepted START (R193): the command runs and the write is answered. -/
def State.started (op : BitVec 1) (fmt : BitVec 2) (s : State) : State :=
  ((s.setCtrl op fmt).startCommand).respond .written

@[simp] theorem started_busy (op : BitVec 1) (fmt : BitVec 2) (s : State) : (s.started op fmt).busy = true := rfl

/-- The operands that a started command runs on (R195). -/
theorem started_outcome (op : BitVec 1) (fmt : BitVec 2) (s : State) :
    (s.started op fmt).outcome = runCommand s.capacity op fmt s.inLen.toNat s.inByte := rfl

theorem exec_encodeRfc_of_idle {s : State} (h : s.busy = false) (rsv : Reserved) :
    exec (.encodeRfc rsv) s = .next (s.started 0 0) := by
  rw [exec, execEncodeRfc, acceptCtrl_start h, State.started]

theorem exec_encodeCrk_of_idle {s : State} (h : s.busy = false) (rsv : Reserved) :
    exec (.encodeCrk rsv) s = .next (s.started 0 1) := by
  rw [exec, execEncodeCrk, acceptCtrl_start h, State.started]

/-- Completion of a successful command shows its bytes and no error (R197). -/
theorem engineTurn_shows_ok {s : State} {bytes : List Byte} (hb : s.busy = true) (h : s.outcome = .ok bytes) :
    s.engineTurn.shows 0 0 0 0 bytes := by
  rw [engineTurn_of_busy hb, h]
  refine ⟨rfl, rfl, rfl, rfl, rfl, rfl, rfl, fun i => ?_⟩
  simp [read?_ofBytes]

/-- Completion of a failed command shows its error and no bytes (R197). -/
theorem engineTurn_shows_err {s : State} {k : ErrKind} {c : ErrCtx} (hb : s.busy = true) (h : s.outcome = .err k c) :
    s.engineTurn.shows k.code c.byte c.pos c.count [] := by
  rw [engineTurn_of_busy hb, h]
  exact ⟨rfl, rfl, rfl, rfl, rfl, rfl, rfl, fun _ => rfl⟩

/-- A running command whose outcome is CapacityExceeded shows code 6 and the count (R221, R224). -/
theorem engineTurn_shows_capacityExceeded {s : State} {n : Nat} (hb : s.busy = true)
    (h : s.outcome = .failCount .capacityExceeded n) : s.engineTurn.shows 6 0 0 (BitVec.ofNat 32 n) [] :=
  engineTurn_shows_err hb h

/-! ## The encode commands -/

/-- The FMT of a format (R71). -/
def Format.code : Format → BitVec 2
  | .rfc => 0
  | .crk => 1

/-- The outcome of an encode command (R146, R147): the length of the input is checked first, then that of the text. -/
theorem runCommand_encode (f : Format) (cap n : Nat) (inByte : Nat → Byte) :
    runCommand cap 0 f.code n inByte =
      if cap < n then .failCount .capacityExceeded n
      else if cap < encLen f n then .failCount .capacityExceeded (encLen f n)
      else .ok (encodeText f (bufferInput inByte n)) := by
  cases f <;> rfl

/-- The three outcomes of an encode command, as its completion shows them (R146, R147). -/
theorem encode_shows (f : Format) (s : State) :
    (s.capacity < s.inLen.toNat → (s.started 0 f.code).engineTurn.shows 6 0 0 s.inLen []) ∧
    (s.inLen.toNat ≤ s.capacity → s.capacity < encLen f s.inLen.toNat →
      (s.started 0 f.code).engineTurn.shows 6 0 0 (BitVec.ofNat 32 (encLen f s.inLen.toNat)) []) ∧
    (s.inLen.toNat ≤ s.capacity → encLen f s.inLen.toNat ≤ s.capacity →
      (s.started 0 f.code).engineTurn.shows 0 0 0 0 (encodeText f (bufferInput s.inByte s.inLen.toNat))) := by
  have hout := (started_outcome 0 f.code s).trans (runCommand_encode f s.capacity s.inLen.toNat s.inByte)
  refine ⟨fun hn => ?_, fun hn hlen => ?_, fun hn hlen => ?_⟩
  · rw [if_pos hn] at hout
    simpa using engineTurn_shows_capacityExceeded (started_busy 0 f.code s) hout
  · rw [if_neg (Nat.not_lt.mpr hn), if_pos hlen] at hout
    exact engineTurn_shows_capacityExceeded (started_busy 0 f.code s) hout
  · rw [if_neg (Nat.not_lt.mpr hn), if_neg (Nat.not_lt.mpr hlen)] at hout
    exact engineTurn_shows_ok (started_busy 0 f.code s) hout

/-- Settles O20: an idle core starts the command, and the completion is that of the format RFC4648. -/
theorem encodeRfcShowsItsResult : Obligations.EncodeRfcShowsItsResult := fun s rsv hidle =>
  ⟨s.started 0 0, exec_encodeRfc_of_idle hidle rsv, rfl, encode_shows .rfc s⟩

/-- Settles O21: an idle core starts the command, and the completion is that of the format Crockford. -/
theorem encodeCrkShowsItsResult : Obligations.EncodeCrkShowsItsResult := fun s rsv hidle =>
  ⟨s.started 0 1, exec_encodeCrk_of_idle hidle rsv, rfl, encode_shows .crk s⟩

end Sys2Proof.Machine
end

section
/-! PROOFS. The family of spec/43_decoder.md: the round trip of the codec (R172), DECODE.RFC from its START to what it
shows at completion (R170), the discarded bits (R167), and the laws of case, aliases and separators (R173). -/

namespace Sys2Proof.Machine

/-! ## decode by its verdict -/

/-- What the RFC4648 decoder answers to a text of this verdict (R161, R162): an error with its count, or the outcome of
the scan of the data symbols. -/
def Verdict.result (t : List Byte) : Verdict → Result
  | .invalidLength => .failCount .invalidLength t.length
  | .invalidPadding => .failCount .invalidPadding (trailingEq t)
  | .ok m => (scanFrom .rfc 0 (t.take m)).result

/-- The empty text is no case of its own: its scan finds no value. -/
theorem decodeText_crk (t : List Byte) : decodeText .crk t = (scanFrom .crk 0 t).result := by
  cases t with
  | nil => rfl
  | cons c t => rfl

/-- The empty text is no case of its own: its verdict is OK, and its scan finds no value. -/
theorem decodeText_rfc (t : List Byte) : decodeText .rfc t = (padCheck t.length (trailingEq t)).result t := by
  cases t with
  | nil => rfl
  | cons c t =>
    rw [decodeText, if_neg (List.cons_ne_nil c t)]
    cases padCheck (c :: t).length (trailingEq (c :: t)) <;> rfl

/-- The text that is scanned for values: in RFC4648 what stands before the trailing `=`. -/
def dataSymbols (f : Format) (t : List Byte) : List Byte :=
  match f with
  | .rfc => t.take (t.length - trailingEq t)
  | .crk => t

/-- A text whose length and padding are accepted has the outcome of its scan. -/
theorem decodeText_of_accepted {f : Format} {t : List Byte}
    (h : f = .rfc → ∃ m, padCheck t.length (trailingEq t) = .ok m) :
    decodeText f t = (scanFrom f 0 (dataSymbols f t)).result := by
  cases f with
  | rfc =>
    obtain ⟨m, hm⟩ := h rfl
    obtain ⟨_, _, hsub⟩ := (padCheck_eq_ok_iff _ _ _).mp hm
    rw [decodeText_rfc, hm, Verdict.result, dataSymbols, hsub]
  | crk => exact decodeText_crk t

/-! ## The round trip -/

/-- The trailing `=` of a text of the encoder are its padding: no canonical symbol is `=`. -/
theorem trailingEq_encodeText_rfc (d : List Byte) : trailingEq (encodeText .rfc d) = padGen d.length := by
  refine trailingEq_append_replicate _ _ fun hlast => ?_
  have hmem := mem_encRom_of_mem_encodeSymbols (List.mem_of_getLast? hlast)
  exact (canonical_symbol_facts .rfc padByte hmem).1 rfl

/-- The decoder scans exactly the symbols that the encoder wrote. -/
theorem dataSymbols_encodeText (f : Format) (d : List Byte) : dataSymbols f (encodeText f d) = encodeSymbols f d := by
  cases f with
  | rfc =>
    rw [dataSymbols, trailingEq_encodeText_rfc]
    simp [encodeText, encodePadding]
  | crk => exact List.append_nil _

/-- The decoder accepts the length and the padding of a text of the encoder (R130). -/
theorem padCheck_encodeText_rfc (d : List Byte) :
    ∃ m, padCheck (encodeText .rfc d).length (trailingEq (encodeText .rfc d)) = .ok m := by
  have hlen : (encodeText .rfc d).length % 8 = 0 := by simp [encLen]
  rw [trailingEq_encodeText_rfc]
  exact ⟨_, padCheck_of_accepted hlen ((exists_padGen_eq_iff _).mp ⟨_, rfl⟩)⟩

/-- Settles O50: the decoder accepts the encoder's text, scans its symbols back to the values of the data, and these
hold the data's bytes. -/
theorem decodeOfEncodeIsTheData : Obligations.DecodeOfEncodeIsTheData := by
  intro f d
  have haccepted : f = .rfc → ∃ m, padCheck (encodeText f d).length (trailingEq (encodeText f d)) = .ok m := by
    rintro rfl
    exact padCheck_encodeText_rfc d
  calc decodeText f (encodeText f d)
    _ = (scanFrom f 0 ((valuesOf d).map (encMap f))).result := by
      rw [decodeText_of_accepted haccepted, dataSymbols_encodeText, encodeSymbols_eq]
    _ = .ok (unpack (valuesOf d)) := by rw [scan_symbols, Scan.result]
    _ = .ok d := by rw [unpack_valuesOf]

/-! ## The decode commands -/

theorem exec_decodeRfc_of_idle {s : State} (h : s.busy = false) (rsv : Reserved) :
    exec (.decodeRfc rsv) s = .next (s.started 1 0) := by
  rw [exec, execDecodeRfc, acceptCtrl_start h, State.started]

/-- The outcome of a decode command (R170, R171): the length of the input is checked before its text. -/
theorem runCommand_decode (f : Format) (cap n : Nat) (inByte : Nat → Byte) :
    runCommand cap 1 f.code n inByte =
      if cap < n then .failCount .capacityExceeded n else decodeText f (bufferInput inByte n) := by
  cases f <;> rfl

/-- The three outcomes of a decode command, as its completion shows them (R170, R171). -/
theorem decode_shows (f : Format) (s : State) :
    (s.capacity < s.inLen.toNat → (s.started 1 f.code).engineTurn.shows 6 0 0 s.inLen []) ∧
    (∀ bytes, s.inLen.toNat ≤ s.capacity → decodeText f (bufferInput s.inByte s.inLen.toNat) = .ok bytes →
      (s.started 1 f.code).engineTurn.shows 0 0 0 0 bytes) ∧
    (∀ k c, s.inLen.toNat ≤ s.capacity → decodeText f (bufferInput s.inByte s.inLen.toNat) = .err k c →
      (s.started 1 f.code).engineTurn.shows k.code c.byte c.pos c.count []) := by
  have hout := (started_outcome 1 f.code s).trans (runCommand_decode f s.capacity s.inLen.toNat s.inByte)
  refine ⟨fun hn => ?_, fun bytes hn hdec => ?_, fun k c hn hdec => ?_⟩
  · rw [if_pos hn] at hout
    simpa using engineTurn_shows_capacityExceeded (started_busy 1 f.code s) hout
  · rw [if_neg (Nat.not_lt.mpr hn), hdec] at hout
    exact engineTurn_shows_ok (started_busy 1 f.code s) hout
  · rw [if_neg (Nat.not_lt.mpr hn), hdec] at hout
    exact engineTurn_shows_err (started_busy 1 f.code s) hout

/-- A scan fails with IllegalCharacter only (R165). -/
theorem kind_of_scan_err {r : Scan} {k : ErrKind} {c : ErrCtx} (h : r.result = .err k c) : k = .illegalCharacter := by
  cases r with
  | values vs => cases h
  | illegal b pos => cases h; rfl

/-- The kinds of an RFC4648 decoding error, in the order of the checks (R161, R162, R165). -/
theorem kind_of_decodeText_rfc_err {t : List Byte} {k : ErrKind} {c : ErrCtx} (h : decodeText .rfc t = .err k c) :
    k = .invalidLength ∨ k = .invalidPadding ∨ k = .illegalCharacter := by
  rw [decodeText_rfc] at h
  cases hv : padCheck t.length (trailingEq t) with
  | invalidLength => rw [hv] at h; cases h; exact .inl rfl
  | invalidPadding => rw [hv] at h; cases h; exact .inr (.inl rfl)
  | ok m => rw [hv] at h; exact .inr (.inr (kind_of_scan_err h))

/-- Settles O22: an idle core starts the command, and the completion is that of the format RFC4648. -/
theorem decodeRfcShowsItsResult : Obligations.DecodeRfcShowsItsResult := by
  intro s rsv hidle
  obtain ⟨hcap, hok, herr⟩ := decode_shows .rfc s
  exact ⟨s.started 1 0, exec_decodeRfc_of_idle hidle rsv, rfl, hcap, hok,
    fun k c hn hdec => ⟨herr k c hn hdec, kind_of_decodeText_rfc_err hdec⟩⟩

/-! ## The discarded bits -/

/-- A field that lies in the first `n` bits is a field of those. -/
theorem field_take {w n j : Nat} (bs : List Bool) (h : w * (j + 1) ≤ n) : field w (bs.take n) j = field w bs j := by
  rw [Nat.mul_succ] at h
  rw [field, field, List.drop_take, List.take_take, Nat.min_eq_left (by omega)]

/-- The decoded bytes see no bit of the values past the last whole byte (R167). -/
theorem unpack_congr {vs ws : List (BitVec 5)} (hlen : vs.length = ws.length)
    (hbits : (vs.flatMap bits5).take (8 * (5 * vs.length / 8)) =
      (ws.flatMap bits5).take (8 * (5 * vs.length / 8))) : unpack vs = unpack ws := by
  rw [unpack, unpack, ← hlen]
  refine List.map_congr_left fun j hj => ?_
  have hj : 8 * (j + 1) ≤ 8 * (5 * vs.length / 8) := Nat.mul_le_mul_left 8 (List.mem_range.mp hj)
  rw [← field_take (vs.flatMap bits5) hj, hbits, field_take (ws.flatMap bits5) hj]

/-- Texts whose scans have one outcome decode alike; RFC4648 texts of one length and one trailing count have one verdict,
and where it is not OK that is the outcome. -/
theorem decodeText_congr {f : Format} {t t' : List Byte}
    (hpad : f = .rfc → t.length = t'.length ∧ trailingEq t = trailingEq t')
    (hscan : (scanFrom f 0 (dataSymbols f t)).result = (scanFrom f 0 (dataSymbols f t')).result) :
    decodeText f t = decodeText f t' := by
  cases f with
  | crk => rw [decodeText_crk, decodeText_crk]; exact hscan
  | rfc =>
    obtain ⟨hlen, heq⟩ := hpad rfl
    cases hv : padCheck t.length (trailingEq t) with
    | invalidLength => rw [decodeText_rfc, decodeText_rfc, ← hlen, ← heq, hv, Verdict.result, Verdict.result, hlen]
    | invalidPadding => rw [decodeText_rfc, decodeText_rfc, ← hlen, ← heq, hv, Verdict.result, Verdict.result, heq]
    | ok m =>
      have hv' : padCheck t'.length (trailingEq t') = .ok m := by rw [← hlen, ← heq, hv]
      rw [decodeText_of_accepted fun _ => ⟨m, hv⟩, hscan, decodeText_of_accepted fun _ => ⟨m, hv'⟩]

/-- Settles O52: the scans have one outcome, because the decoded bytes do not see the discarded bits; and the scan of an
accepted text decides its outcome. -/
theorem discardedBitsAreNotChecked : Obligations.DiscardedBitsAreNotChecked := by
  refine ⟨fun f t t' vs ws hpad hvs hws hlen hbits => decodeText_congr hpad ?_, fun f t vs haccepted hvs => ?_⟩
  · change scanFrom f 0 (dataSymbols f t) = _ at hvs
    change scanFrom f 0 (dataSymbols f t') = _ at hws
    rw [hvs, hws, Scan.result, Scan.result, unpack_congr hlen hbits]
  · change scanFrom f 0 (dataSymbols f t) = _ at hvs
    exact ⟨unpack vs, by rw [decodeText_of_accepted haccepted, hvs, Scan.result]⟩

/-! ## The scan of a text whose bytes are replaced -/

/-- The illegal byte of a scan replaced. -/
def Scan.mapByte (g : Byte → Byte) : Scan → Scan
  | .values vs => .values vs
  | .illegal b pos => .illegal (g b) pos

theorem Scan.mapByte_cons (g : Byte → Byte) (v : BitVec 5) (r : Scan) : (r.cons v).mapByte g = (r.mapByte g).cons v := by
  cases r <;> rfl

/-- Bytes replaced by bytes of the same value leave the scan as it is, but for the illegal byte that it reports. -/
theorem scanFrom_map {f : Format} {g : Byte → Byte} (hskips : ∀ c, skips f (g c) = skips f c)
    (hvalue : ∀ c, decMap f (g c) = decMap f c) (i : Nat) (t : List Byte) :
    scanFrom f i (t.map g) = (scanFrom f i t).mapByte g := by
  induction t generalizing i with
  | nil => rfl
  | cons c t ih =>
    rw [List.map_cons, scanFrom, scanFrom, hskips, hvalue, ih]
    split
    · rfl
    · cases decMap f c with
      | some v => exact (Scan.mapByte_cons g v _).symm
      | none => rfl

/-- The byte of an error replaced. -/
def Result.mapByte (g : Byte → Byte) : Result → Result
  | .ok bytes => .ok bytes
  | .err k c => .err k { c with byte := g c.byte }

theorem Scan.result_mapByte (g : Byte → Byte) (r : Scan) : (r.mapByte g).result = r.result.mapByte g := by
  cases r <;> rfl

/-! ## The case law of decode -/

/-- A byte that is no letter is the upper-case form of itself only. -/
theorem foldCase_eq_iff {c d : Byte} (hd : ¬(0x41 ≤ d.toNat ∧ d.toNat ≤ 0x5A) ∧ ¬(0x61 ≤ d.toNat ∧ d.toNat ≤ 0x7A)) :
    foldCase c = d ↔ c = d := by
  rw [← BitVec.toNat_inj, ← BitVec.toNat_inj, toNat_foldCase]
  split <;> omega

theorem skips_foldCase (f : Format) (c : Byte) : skips f (foldCase c) = skips f c := by
  have hhyphen : (foldCase c == hyphen) = (c == hyphen) := Bool.eq_iff_iff.mpr (by simp [foldCase_eq_iff, hyphen])
  rw [skips, skips, hhyphen]

theorem trailingEq_map_foldCase (t : List Byte) : trailingEq (t.map foldCase) = trailingEq t := by
  have hpad : ((· == padByte) ∘ foldCase) = (· == padByte) :=
    funext fun c => Bool.eq_iff_iff.mpr (by simp [foldCase_eq_iff, padByte])
  rw [trailingEq, ← List.map_reverse, List.takeWhile_map, hpad, List.length_map, trailingEq]

/-- decode sees a text only through its upper-case form, but for the illegal byte that it reports (R173). -/
theorem decodeText_map_foldCase (f : Format) (t : List Byte) :
    decodeText f (t.map foldCase) = (decodeText f t).mapByte foldCase := by
  have hscan (u : List Byte) : (scanFrom f 0 (u.map foldCase)).result = (scanFrom f 0 u).result.mapByte foldCase := by
    rw [scanFrom_map (skips_foldCase f) (decMap_foldCase f), Scan.result_mapByte]
  cases f with
  | rfc =>
    rw [decodeText_rfc, decodeText_rfc, trailingEq_map_foldCase, List.length_map]
    cases padCheck t.length (trailingEq t) with
    | invalidLength => rw [Verdict.result, List.length_map]; rfl
    | invalidPadding => rw [Verdict.result, trailingEq_map_foldCase]; rfl
    | ok m => rw [Verdict.result, ← List.map_take, hscan]; rfl
  | crk => rw [decodeText_crk, decodeText_crk, hscan]

/-- Two bytes of one upper-case form are the same or differ in case. -/
theorem eq_or_eq_flipCase {b c : Byte} (h : foldCase b = foldCase c) : b = c ∨ b = flipCase c := by
  rw [← BitVec.toNat_inj, ← BitVec.toNat_inj, toNat_flipCase]
  rw [← BitVec.toNat_inj, toNat_foldCase, toNat_foldCase] at h
  split_ifs at h ⊢ <;> omega

theorem sameUpToCase_of_mapByte_foldCase {r r' : Result} (h : r.mapByte foldCase = r'.mapByte foldCase) :
    sameUpToCase r r' := by
  cases r with
  | ok bytes =>
    cases r' with
    | ok bytes' => exact Result.ok.inj h
    | err k' c' => cases h
  | err k c =>
    cases r' with
    | ok bytes' => cases h
    | err k' c' =>
      obtain ⟨hkind, hctx⟩ := Result.err.inj h
      obtain ⟨hbyte, hpos, hcount⟩ := ErrCtx.mk.inj hctx
      exact ⟨hkind, hpos, hcount, eq_or_eq_flipCase hbyte⟩

/-- Texts of one upper-case form decode alike, up to the case of the illegal byte. -/
theorem decodeText_sameUpToCase (f : Format) {t t' : List Byte} (h : t.map foldCase = t'.map foldCase) :
    sameUpToCase (decodeText f t) (decodeText f t') :=
  sameUpToCase_of_mapByte_foldCase (by rw [← decodeText_map_foldCase, h, decodeText_map_foldCase])

theorem foldCase_lowerCase (c : Byte) : foldCase (lowerCase c) = foldCase c := by
  rw [lowerCase]
  split
  · next hupper =>
    have hflip : flipCase c = c + 0x20 := if_pos hupper
    rw [← hflip, foldCase_flipCase]
  · rfl

theorem foldCase_upperCase (c : Byte) : foldCase (upperCase c) = foldCase c := foldCase_foldCase c

theorem map_foldCase_lowerCase (t : List Byte) : (t.map lowerCase).map foldCase = t.map foldCase := by
  simp [foldCase_lowerCase]

theorem map_foldCase_upperCase (t : List Byte) : (t.map upperCase).map foldCase = t.map foldCase := by
  simp [foldCase_upperCase]

/-! ## The law of the aliases -/

/-- Only the six aliases are replaced, each by a digit. -/
theorem unalias_cases (c : Byte) :
    unalias c = c ∨ (c ∈ [0x4F, 0x6F] ∧ unalias c = 0x30) ∨ (c ∈ [0x49, 0x69, 0x4C, 0x6C] ∧ unalias c = 0x31) := by
  rw [unalias]
  split
  · next h => exact .inr (.inl ⟨by simpa using h, rfl⟩)
  · split
    · next h => exact .inr (.inr ⟨by simpa using h, rfl⟩)
    · exact .inl rfl

theorem unalias_unalias (c : Byte) : unalias (unalias c) = unalias c := by
  obtain h | ⟨_, h⟩ | ⟨_, h⟩ := unalias_cases c <;> rw [h]
  · exact h
  · rfl
  · rfl

/-- The aliases are symbols with the values of their digits (R103); every other byte stays. -/
theorem unalias_facts (c : Byte) :
    skips .crk (unalias c) = skips .crk c ∧ decMap .crk (unalias c) = decMap .crk c ∧
      (decMap .crk c = none → unalias c = c) := by
  obtain h | ⟨hc, h⟩ | ⟨hc, h⟩ := unalias_cases c <;> rw [h]
  · exact ⟨rfl, rfl, fun _ => rfl⟩
  all_goals
    clear h
    revert c
    decide

/-- The byte that ends a scan has no value (R165). -/
theorem decMap_of_scan_illegal {f : Format} {i pos : Nat} {t : List Byte} {b : Byte}
    (h : scanFrom f i t = .illegal b pos) : decMap f b = none := by
  induction t generalizing i with
  | nil => cases h
  | cons c t ih =>
    rw [scanFrom] at h
    split at h
    · exact ih h
    · split at h
      · cases hscan : scanFrom f (i + 1) t with
        | values vs => rw [hscan] at h; cases h
        | illegal b' pos' => rw [hscan] at h; cases h; exact ih hscan
      · next hc => cases h; exact hc

/-- Aliases have the values of their digits, and none of them is illegal. -/
theorem scanFrom_map_unalias (i : Nat) (t : List Byte) : scanFrom .crk i (t.map unalias) = scanFrom .crk i t := by
  rw [scanFrom_map (fun c => (unalias_facts c).1) (fun c => (unalias_facts c).2.1)]
  cases hscan : scanFrom .crk i t with
  | values vs => rfl
  | illegal b pos => rw [Scan.mapByte, (unalias_facts b).2.2 (decMap_of_scan_illegal hscan)]

/-- Some aliases of a text replaced: the text with all of them replaced is the same. -/
theorem map_unalias_eq {t t' : List Byte} (h : List.Forall₂ (fun a b => b = a ∨ b = unalias a) t t') :
    t'.map unalias = t.map unalias := by
  induction h with
  | nil => rfl
  | cons hab _ ih =>
    rw [List.map_cons, List.map_cons, ih]
    obtain rfl | rfl := hab
    · rfl
    · rw [unalias_unalias]

theorem decodeText_crk_of_aliases {t t' : List Byte} (h : List.Forall₂ (fun a b => b = a ∨ b = unalias a) t t') :
    decodeText .crk t' = decodeText .crk t := by
  rw [decodeText_crk, decodeText_crk, ← scanFrom_map_unalias 0 t', map_unalias_eq h, scanFrom_map_unalias]

/-! ## The separator law of decode -/

theorem Scan.cons_eq_values_iff {v : BitVec 5} {r : Scan} {vs : List (BitVec 5)} :
    r.cons v = .values vs ↔ ∃ ws, r = .values ws ∧ v :: ws = vs := by
  cases r <;> simp [Scan.cons]

/-- A scan succeeds exactly when every byte that it does not skip has a value, wherever the skipped bytes stand. -/
theorem scanFrom_eq_values_iff (f : Format) (i : Nat) (t : List Byte) (vs : List (BitVec 5)) :
    scanFrom f i t = .values vs ↔ (t.filter fun c => !skips f c).map (decMap f) = vs.map some := by
  induction t generalizing i vs with
  | nil => cases vs <;> simp [scanFrom]
  | cons c t ih =>
    rw [scanFrom]
    cases hskips : skips f c with
    | true => simpa [hskips] using ih (i + 1) vs
    | false =>
      cases hvalue : decMap f c with
      | none => cases vs <;> simp [hskips, hvalue]
      | some v =>
        cases vs with
        | nil => simp [hskips, Scan.cons_eq_values_iff]
        | cons w ws => simp [hskips, hvalue, Scan.cons_eq_values_iff, ih, eq_comm, and_comm]

theorem filter_not_skips_crk (t : List Byte) : (t.filter fun c => !skips .crk c) = t.filter (· ≠ 0x2D) := by
  simp [skips, hyphen, beq_eq_decide]

/-- Texts that differ in hyphens only have the same successful scans. -/
theorem decodeText_crk_of_separators {t t' bytes : List Byte} (h : t.filter (· ≠ 0x2D) = t'.filter (· ≠ 0x2D))
    (hok : decodeText .crk t = .ok bytes) : decodeText .crk t' = .ok bytes := by
  rw [decodeText_crk] at hok ⊢
  cases hscan : scanFrom .crk 0 t with
  | illegal b pos => rw [hscan] at hok; cases hok
  | values vs =>
    have hscan' : scanFrom .crk 0 t' = .values vs := by
      rwa [scanFrom_eq_values_iff, filter_not_skips_crk, h, ← filter_not_skips_crk, ← scanFrom_eq_values_iff] at hscan
    rw [hscan', ← hscan, hok]

/-- Settles O53: a text, its lower-case and its upper-case form have one upper-case form; a text and the text with some
aliases replaced have one scan; and texts that differ in hyphens only have one successful scan. -/
theorem decodeIgnoresCaseAliasesAndSeparators : Obligations.DecodeIgnoresCaseAliasesAndSeparators := by
  refine ⟨fun f t => ?_, fun t t' => decodeText_crk_of_aliases, fun t t' bytes => decodeText_crk_of_separators⟩
  have hlower := map_foldCase_lowerCase t
  have hupper := map_foldCase_upperCase t
  exact ⟨decodeText_sameUpToCase f hlower.symm, decodeText_sameUpToCase f hupper.symm,
    decodeText_sameUpToCase f (hlower.trans hupper.symm)⟩

end Sys2Proof.Machine
end

section
/-! PROOFS. The family of spec/44_host_interface.md: which transactions the map refuses (R190, R202), the register
writes (R192, R205), the command with a reserved format (R206), and the buffer writes (R199, R201). -/

namespace Sys2Proof.Machine

/-! ## The map and BusError -/

/-- The answer to a transaction that the map accepts, or not (R60, R190): a next state, or BusError, a read's with a
free data word. -/
def MapDecides (accepted read : Bool) (s : State) (o : Host.Outcome State Fault Refusal) : Prop :=
  (accepted = true → ∃ t, o = .next t) ∧
    (accepted = false → ∃ cause,
      o = .fault (.busError cause (if read then some (Config.refusedReadData s.draws) else none)))

theorem mapDecides_next (read : Bool) (s t : State) : MapDecides true read s (.next t) :=
  ⟨fun _ => ⟨t, rfl⟩, nofun⟩

theorem mapDecides_busError (we : Bool) (cause : BusCause) (s : State) :
    MapDecides false (!we) s (busError we cause s) :=
  ⟨nofun, fun _ => ⟨cause, by cases we <;> rfl⟩⟩

/-- A transaction that checks the map first (R190). -/
theorem mapDecides_check (accepted we : Bool) (cause : BusCause) (s t : State) :
    MapDecides accepted (!we) s (if accepted then .next t else busError we cause s) := by
  cases accepted with
  | true => exact mapDecides_next (!we) s t
  | false => exact mapDecides_busError we cause s

/-- The checks that `exec` makes are those of the map, whatever the instruction. -/
theorem exec_mapDecides (i : Instr) (s : State) : MapDecides (accepts s.capacity i) (reads i) s (exec i s) := by
  cases i with
  | config op fmt rsv => exact mapDecides_next ..
  | encodeRfc rsv => exact mapDecides_next ..
  | encodeCrk rsv => exact mapDecides_next ..
  | decodeRfc rsv => exact mapDecides_next ..
  | decodeCrk rsv => exact mapDecides_next ..
  | cmdBadFmt op fmt rsv => exact mapDecides_next ..
  | rd32Reg off =>
    rw [accepts, ← regAt?_isSome, exec, execRd32Reg]
    cases regAt? off with
    | some r => exact mapDecides_next ..
    | none => exact mapDecides_busError false ..
  | wr32Reg off w =>
    rw [accepts, ← regAt?_isSome, exec, execWr32Reg]
    cases regAt? off with
    | some r => exact mapDecides_next ..
    | none => exact mapDecides_busError true ..
  | rd8Reg off => exact mapDecides_busError false ..
  | wr8Reg off w => exact mapDecides_busError true ..
  | rd8In idx => exact mapDecides_check (s.mapsByte idx) false ..
  | rd8Out idx => exact mapDecides_check (s.mapsByte idx) false ..
  | wr8In idx w => exact mapDecides_check (s.mapsByte idx) true ..
  | wr8Out idx w => exact mapDecides_check (s.mapsByte idx) true ..
  | rd32In idx => exact mapDecides_check (s.mapsWord idx) false ..
  | rd32Out idx => exact mapDecides_check (s.mapsWord idx) false ..
  | wr32In idx w => exact mapDecides_check (s.mapsWord idx) true ..
  | wr32Out idx w => exact mapDecides_check (s.mapsWord idx) true ..
  | reservedSpace we sz idx w => exact mapDecides_busError we ..
  | badSize we sz off w => exact mapDecides_busError we ..

/-- Settles O38: the two directions of `exec_mapDecides`. -/
theorem busErrorExactlyWhenTheMapRefuses : Obligations.BusErrorExactlyWhenTheMapRefuses := exec_mapDecides

/-- Settles O39: each of the four rows is a BusError by definition, with the cause that it names. -/
theorem rowsThatAlwaysRaiseBusError : Obligations.RowsThatAlwaysRaiseBusError := fun _ off _ _ _ _ =>
  ⟨⟨regByteCause off, rfl⟩, ⟨regByteCause off, rfl⟩, ⟨.reservedOffset, rfl⟩, ⟨.badSize, rfl⟩⟩

/-! ## Register writes -/

/-- A size-4 write at a register's offset writes that register and is answered (R192). -/
theorem exec_wr32Reg_offset (r : Reg) (w : Word) (s : State) :
    exec (.wr32Reg r.offset w) s = .next ((s.writeReg r w).respond .written) := by
  simp only [exec, execWr32Reg, regAt?_offset]

theorem writeReg_ctrl (s : State) (w : Word) :
    s.writeReg .ctrl w = s.acceptCtrl (w.getLsbD 0) (w.extractLsb' 4 1) (w.extractLsb' 8 2) := rfl

theorem writeReg_inLen_of_idle {s : State} (h : s.busy = false) (w : Word) : s.writeReg .inLen w = s.setInLen w :=
  if_neg (Bool.eq_false_iff.mp h)

/-- While BUSY no register takes a write (R194). -/
theorem writeReg_of_busy {s : State} (h : s.busy = true) (r : Reg) (w : Word) : s.writeReg r w = s := by
  cases r with
  | ctrl => exact acceptCtrl_of_busy h _ _ _
  | inLen => exact if_pos h
  | status | outLen | errByte | errPos | errCount | capacity => rfl

/-- The registers that the host can only read (R51), in the order of their offsets. -/
def readOnlyRegs : List Reg := [.status, .outLen, .errByte, .errPos, .errCount, .capacity]

theorem writeReg_of_readOnly {r : Reg} (h : r ∈ readOnlyRegs) (s : State) (w : Word) : s.writeReg r w = s := by
  cases r with
  | ctrl | inLen => simp [readOnlyRegs] at h
  | status | outLen | errByte | errPos | errCount | capacity => rfl

/-- A write that the register does not take leaves only its answer. -/
theorem exec_wr32Reg_of_ignored {r : Reg} {s : State} {w : Word} (h : s.writeReg r w = s) :
    exec (.wr32Reg r.offset w) s = .next (s.respond .written) := by
  rw [exec_wr32Reg_offset, h]

/-- Settles O12: CTRL by its START bit and IN_LEN while idle, both while BUSY, and the read-only registers. -/
theorem registerWritesTakeEffectOnlyWhileIdle : Obligations.RegisterWritesTakeEffectOnlyWhileIdle := by
  refine fun s w => ⟨fun hidle hstart => ?_, fun hidle hstart => ?_, fun hidle => ?_, fun hbusy => ?_, fun hbusy => ?_, ?_⟩
  · refine (exec_wr32Reg_offset .ctrl w s).trans ?_
    rw [writeReg_ctrl, hstart, acceptCtrl_config hidle]
    rfl
  · refine (exec_wr32Reg_offset .ctrl w s).trans ?_
    rw [writeReg_ctrl, hstart, acceptCtrl_start hidle]
    rfl
  · refine (exec_wr32Reg_offset .inLen w s).trans ?_
    rw [writeReg_inLen_of_idle hidle]
    rfl
  · exact exec_wr32Reg_of_ignored (writeReg_of_busy hbusy .ctrl w)
  · exact exec_wr32Reg_of_ignored (writeReg_of_busy hbusy .inLen w)
  · intro o ho
    change o ∈ readOnlyRegs.map Reg.offset at ho
    obtain ⟨r, hr, rfl⟩ := List.mem_map.mp ho
    exact exec_wr32Reg_of_ignored (writeReg_of_readOnly hr s w)

/-! ## The command words CONFIG and CMD.BADFMT -/

/-- Settles O16: CONFIG is a write of CTRL without START. -/
theorem configOnlyStoresOpAndFmt : Obligations.ConfigOnlyStoresOpAndFmt := by
  refine fun s op fmt rsv => ⟨fun hidle => ?_, fun hbusy => ?_⟩
  · rw [exec, execConfig, acceptCtrl_config hidle]
    rfl
  · rw [exec, execConfig, acceptCtrl_of_busy hbusy]
    rfl

theorem exec_cmdBadFmt_of_idle {s : State} (h : s.busy = false) (op : BitVec 1) (fmt : BitVec 2) (rsv : Reserved) :
    exec (.cmdBadFmt op fmt rsv) s = .next (s.started op fmt) := by
  rw [exec, execCmdBadFmt, acceptCtrl_start h, State.started]

/-- A reserved format is found before any other check, and its code is the count (R226, R230). -/
theorem runCommand_of_reserved {fmt : BitVec 2} (h : fmt.getLsbD 1 = true) (cap : Nat) (op : BitVec 1) (n : Nat)
    (inByte : Nat → Byte) :
    runCommand cap op fmt n inByte = .err .invalidOption { byte := 0, pos := 0, count := fmt.setWidth 32 } := by
  rw [runCommand, if_pos h, outcomeBadFmt, Result.failCount, BitVec.ofNat_toNat]

/-- Settles O24: an idle core starts the command, whose outcome is InvalidOption. -/
theorem reservedFormatCompletesWithInvalidOption : Obligations.ReservedFormatCompletesWithInvalidOption := by
  intro s op fmt rsv hidle hfmt
  have hout := (started_outcome op fmt s).trans (runCommand_of_reserved hfmt s.capacity op s.inLen.toNat s.inByte)
  exact ⟨s.started op fmt, exec_cmdBadFmt_of_idle hidle op fmt rsv, rfl,
    engineTurn_shows_err (started_busy op fmt s) hout⟩

/-! ## Buffer writes -/

theorem mapsByte_iff (s : State) (idx : BitVec 16) : s.mapsByte idx = true ↔ idx.toNat < s.capacity :=
  decide_eq_true_iff

theorem mapsWord_iff (s : State) (idx : BitVec 16) :
    s.mapsWord idx = true ↔ idx.toNat % 4 = 0 ∧ idx.toNat + 3 < s.capacity := by
  simp [State.mapsWord]

section
variable {s : State} {idx : BitVec 16}

theorem exec_wr8In_of_idle (hmap : s.mapsByte idx = true) (h : s.busy = false) (w : Word) :
    exec (.wr8In idx w) s = .next ((s.setInByte idx.toNat (lane w 0)).respond .written) := by
  rw [exec, execWr8In, if_pos hmap, if_neg (Bool.eq_false_iff.mp h)]

theorem exec_wr8In_of_busy (hmap : s.mapsByte idx = true) (h : s.busy = true) (w : Word) :
    exec (.wr8In idx w) s = .next (s.respond .written) := by
  rw [exec, execWr8In, if_pos hmap, if_pos h]

theorem exec_wr8Out (hmap : s.mapsByte idx = true) (w : Word) :
    exec (.wr8Out idx w) s = .next (s.respond .written) := by
  rw [exec, execWr8Out, if_pos hmap]

theorem exec_wr32In_of_idle (hmap : s.mapsWord idx = true) (h : s.busy = false) (w : Word) :
    exec (.wr32In idx w) s = .next ((s.setInWord idx.toNat w).respond .written) := by
  rw [exec, execWr32In, if_pos hmap, if_neg (Bool.eq_false_iff.mp h)]

theorem exec_wr32In_of_busy (hmap : s.mapsWord idx = true) (h : s.busy = true) (w : Word) :
    exec (.wr32In idx w) s = .next (s.respond .written) := by
  rw [exec, execWr32In, if_pos hmap, if_pos h]

theorem exec_wr32Out (hmap : s.mapsWord idx = true) (w : Word) :
    exec (.wr32Out idx w) s = .next (s.respond .written) := by
  rw [exec, execWr32Out, if_pos hmap]

end

/-- Settles O30: while idle the IN_BUF write is a memory write at its index; every other case only answers. -/
theorem byteWriteStoresExactlyThatByte : Obligations.ByteWriteStoresExactlyThatByte := by
  intro s idx w hidx
  have hmap := (mapsByte_iff s idx).mpr hidx
  refine ⟨fun hidle => ⟨_, exec_wr8In_of_idle hmap hidle w, rfl, ?_, fun a ha => ?_⟩,
    fun hbusy => exec_wr8In_of_busy hmap hbusy w, exec_wr8Out hmap w⟩
  · exact read?_write_same s.inBuf idx.toNat (lane w 0)
  · exact read?_write_other s.inBuf (lane w 0) ha

/-- The four lanes stand at the four indexes of the word, lowest first (R55). -/
theorem read?_setInWord_lane (s : State) (i : Nat) (w : Word) {k : Nat} (hk : k < 4) :
    (s.setInWord i w).inBuf.read? (i + k) = some (lane w k) := by
  rw [read?_setInWord]
  interval_cases k <;> simp

/-- No index outside the word is written. -/
theorem read?_setInWord_other (s : State) {i a : Nat} (w : Word) (h : a < i ∨ i + 3 < a) :
    (s.setInWord i w).inBuf.read? a = s.inBuf.read? a := by
  rw [read?_setInWord, if_neg (by omega), if_neg (by omega), if_neg (by omega), if_neg (by omega)]

/-- Settles O32: while idle the IN_BUF write leaves the four lanes of the word; every other case only answers. -/
theorem wordWriteStoresExactlyItsFourBytes : Obligations.WordWriteStoresExactlyItsFourBytes := by
  intro s idx w halign hidx
  have hmap := (mapsWord_iff s idx).mpr ⟨halign, hidx⟩
  have hlane {k : Nat} (hk : k < 4) := read?_setInWord_lane s idx.toNat w hk
  refine ⟨fun hidle => ⟨_, exec_wr32In_of_idle hmap hidle w, rfl, ?_⟩,
    fun hbusy => exec_wr32In_of_busy hmap hbusy w, exec_wr32Out hmap w⟩
  exact ⟨hlane (k := 0) (by decide), hlane (k := 1) (by decide), hlane (k := 2) (by decide),
    hlane (k := 3) (by decide), fun a ha => read?_setInWord_other s w ha⟩

end Sys2Proof.Machine
end

section
/-! PROOFS. The family of spec/60_exceptions.md: the priority list of a command's outcomes (R230), and the error codes
that are never produced (R76, R222). -/

namespace Sys2Proof.Machine

/-! ## A scan by its bytes -/

/-- A scan goes past a byte that has a value and past a skipped hyphen (R163, R164). -/
def scansPast (f : Format) (c : Byte) : Prop := (decMap f c).isSome = true ∨ skips f c = true

/-- A scan goes on after the bytes that it goes past, with the values that they add in front. -/
theorem scanFrom_append_of_scansPast {f : Format} {pre : List Byte} (h : ∀ c ∈ pre, scansPast f c) (i : Nat)
    (t : List Byte) :
    ∃ vs : List (BitVec 5), scanFrom f i (pre ++ t) = vs.foldr Scan.cons (scanFrom f (i + pre.length) t) := by
  induction pre generalizing i with
  | nil => exact ⟨[], rfl⟩
  | cons c pre ih =>
    obtain ⟨hc, hpre⟩ := List.forall_mem_cons.mp h
    obtain ⟨vs, hvs⟩ := ih hpre (i + 1)
    rw [List.cons_append, List.length_cons, scanFrom, hvs, Nat.add_assoc, Nat.add_comm 1]
    cases hskips : skips f c with
    | true => exact ⟨vs, rfl⟩
    | false =>
      obtain ⟨v, hv⟩ := Option.isSome_iff_exists.mp (hc.resolve_right (by simp [hskips]))
      exact ⟨v :: vs, by simp [hv]⟩

theorem foldr_cons_illegal (vs : List (BitVec 5)) (b : Byte) (pos : Nat) :
    vs.foldr Scan.cons (.illegal b pos) = .illegal b pos := by
  induction vs with
  | nil => rfl
  | cons v vs ih => rw [List.foldr_cons, ih, Scan.cons]

theorem foldr_cons_values (vs : List (BitVec 5)) : vs.foldr Scan.cons (.values []) = .values vs := by
  induction vs with
  | nil => rfl
  | cons v vs ih => rw [List.foldr_cons, ih, Scan.cons]

/-- The first byte that a scan cannot go past ends it, with its 1-based position (R165). -/
theorem scanFrom_of_first_illegal {f : Format} {pre : List Byte} {c : Byte} (h : ∀ b ∈ pre, scansPast f b)
    (hnone : decMap f c = none) (hskips : skips f c = false) (i : Nat) (post : List Byte) :
    scanFrom f i (pre ++ c :: post) = .illegal c (i + pre.length + 1) := by
  obtain ⟨vs, hvs⟩ := scanFrom_append_of_scansPast h i (c :: post)
  have hend : scanFrom f (i + pre.length) (c :: post) = .illegal c (i + pre.length + 1) := by
    simp [scanFrom, hskips, hnone]
  rw [hvs, hend, foldr_cons_illegal]

/-- A scan that can go past every byte succeeds. -/
theorem scanFrom_of_scansPast {f : Format} {t : List Byte} (h : ∀ c ∈ t, scansPast f c) (i : Nat) :
    ∃ vs, scanFrom f i t = .values vs := by
  obtain ⟨vs, hvs⟩ := scanFrom_append_of_scansPast h i []
  rw [List.append_nil, scanFrom, foldr_cons_values] at hvs
  exact ⟨vs, hvs⟩

/-! ## The input of a command as a text -/

@[simp] theorem length_bufferInput (inByte : Nat → Byte) (n : Nat) : (bufferInput inByte n).length = n := by
  simp [bufferInput]

theorem forall_mem_bufferInput {inByte : Nat → Byte} {n : Nat} {P : Byte → Prop} :
    (∀ c ∈ bufferInput inByte n, P c) ↔ ∀ j, j < n → P (inByte j) := by
  simp [bufferInput]

theorem bufferInput_split {i n : Nat} (inByte : Nat → Byte) (h : i < n) :
    ∃ post, bufferInput inByte n = bufferInput inByte i ++ inByte i :: post := by
  obtain ⟨k, rfl⟩ := Nat.exists_eq_add_of_lt h
  exact ⟨_, by rw [bufferInput, Nat.add_assoc, List.range_add, List.map_append, List.range_succ_eq_map]; rfl⟩

/-- How many bytes of the input are scanned for values (R162): in RFC4648 the trailing `=` are not. -/
def dataLength (f : Format) (inByte : Nat → Byte) (n : Nat) : Nat :=
  match f with
  | .rfc => n - trailingEq (bufferInput inByte n)
  | .crk => n

theorem dataSymbols_bufferInput (f : Format) (inByte : Nat → Byte) (n : Nat) :
    dataSymbols f (bufferInput inByte n) = bufferInput inByte (dataLength f inByte n) := by
  cases f with
  | rfc =>
    rw [dataSymbols, length_bufferInput, dataLength, bufferInput, ← List.map_take, List.take_range,
      Nat.min_eq_left (Nat.sub_le ..), bufferInput]
  | crk => rfl

/-! ## The priority list -/

/-- The format that an FMT selects, where it is supported (R71). -/
def formatOf (fmt : BitVec 2) : Format := if fmt = 0 then .rfc else .crk

theorem code_formatOf {fmt : BitVec 2} (h : fmt.getLsbD 1 = false) : (formatOf fmt).code = fmt := by
  revert fmt
  decide

theorem eq_zero_of_formatOf_eq_rfc {fmt : BitVec 2} (h : formatOf fmt = .rfc) : fmt = 0 := by
  revert fmt
  decide

theorem dataLength_formatOf (fmt : BitVec 2) (inByte : Nat → Byte) (n : Nat) :
    dataLength (formatOf fmt) inByte n = if fmt = 0 then n - trailingEq (bufferInput inByte n) else n := by
  rw [formatOf]
  split <;> rfl

/-- The trailing `=` counts that are refused (R125). -/
def badPadCount (p : Nat) : Prop := 6 < p ∨ p = 2 ∨ p = 5 ∨ p = 7

section
variable {f : Format} {cap n : Nat} {inByte : Nat → Byte}

/-- Either operation checks the length of its input before all else but the format (R146, R147, R170, R171). -/
theorem runCommand_of_long_input (f : Format) (h : cap < n) (op : BitVec 1) (inByte : Nat → Byte) :
    runCommand cap op f.code n inByte = .failCount .capacityExceeded n := by
  obtain rfl | rfl : op = 0 ∨ op = 1 := op.eq_zero_or_eq_one
  · rw [runCommand_encode, if_pos h]
  · rw [runCommand_decode, if_pos h]

theorem runCommand_encode_of_long_text (hn : n ≤ cap) (hlen : cap < encLen f n) :
    runCommand cap 0 f.code n inByte = .failCount .capacityExceeded (encLen f n) := by
  rw [runCommand_encode, if_neg hn.not_gt, if_pos hlen]

theorem runCommand_encode_of_fits (hn : n ≤ cap) (hlen : encLen f n ≤ cap) :
    runCommand cap 0 f.code n inByte = .ok (encodeText f (bufferInput inByte n)) := by
  rw [runCommand_encode, if_neg hn.not_gt, if_neg hlen.not_gt]

theorem runCommand_decode_of_fits (hn : n ≤ cap) :
    runCommand cap 1 f.code n inByte = decodeText f (bufferInput inByte n) := by
  rw [runCommand_decode, if_neg hn.not_gt]

theorem decodeText_of_length (h : n % 8 ≠ 0) :
    decodeText .rfc (bufferInput inByte n) = .failCount .invalidLength n := by
  rw [decodeText_rfc, length_bufferInput, padCheck_of_length _ h, Verdict.result, length_bufferInput]

theorem decodeText_of_padding (h : n % 8 = 0) (hbad : badPadCount (trailingEq (bufferInput inByte n))) :
    decodeText .rfc (bufferInput inByte n) = .failCount .invalidPadding (trailingEq (bufferInput inByte n)) := by
  rw [decodeText_rfc, length_bufferInput, padCheck_of_padding h hbad, Verdict.result]

/-- An input that passes the checks of length and padding (R124, R125); Crockford has none. -/
def paddingAccepted (f : Format) (inByte : Nat → Byte) (n : Nat) : Prop :=
  f = .rfc → n % 8 = 0 ∧ ¬badPadCount (trailingEq (bufferInput inByte n))

theorem decodeText_of_paddingAccepted (h : paddingAccepted f inByte n) :
    decodeText f (bufferInput inByte n) = (scanFrom f 0 (bufferInput inByte (dataLength f inByte n))).result := by
  rw [← dataSymbols_bufferInput]
  refine decodeText_of_accepted fun hf => ?_
  obtain ⟨hlen, hpad⟩ := h hf
  rw [badPadCount] at hpad
  exact ⟨_, padCheck_of_accepted (by rwa [length_bufferInput]) (by omega)⟩

/-- The lowest illegal index, and the position one above it (R165). -/
theorem decodeText_of_first_illegal (h : paddingAccepted f inByte n) {i : Nat} (hi : i < dataLength f inByte n)
    (hnone : decMap f (inByte i) = none) (hskips : skips f (inByte i) = false)
    (hbefore : ∀ j, j < i → scansPast f (inByte j)) :
    decodeText f (bufferInput inByte n) = .failByte (inByte i) (i + 1) := by
  obtain ⟨post, hpost⟩ := bufferInput_split inByte hi
  rw [decodeText_of_paddingAccepted h, hpost,
    scanFrom_of_first_illegal (forall_mem_bufferInput.mpr hbefore) hnone hskips, Scan.result, length_bufferInput,
    Nat.zero_add]

theorem decodeText_of_scansPast (h : paddingAccepted f inByte n)
    (hall : ∀ j, j < dataLength f inByte n → scansPast f (inByte j)) :
    ∃ bytes, decodeText f (bufferInput inByte n) = .ok bytes := by
  obtain ⟨vs, hvs⟩ := scanFrom_of_scansPast (forall_mem_bufferInput.mpr hall) 0
  exact ⟨unpack vs, by rw [decodeText_of_paddingAccepted h, hvs, Scan.result]⟩

end

/-- Settles O19: in the order of the list, each clause is the lemma about its check, for the format that FMT selects. -/
theorem commandReportsTheFirstOutcomeThatApplies : Obligations.CommandReportsTheFirstOutcomeThatApplies := by
  intro cap op fmt n inBuf t p f m badPad
  have hcode (h : fmt.getLsbD 1 = false) : fmt = f.code := (code_formatOf h).symm
  have hm : m = dataLength f inBuf n := (dataLength_formatOf fmt inBuf n).symm
  have haccepted (h : fmt = 0 → n % 8 = 0 ∧ ¬badPad) : paddingAccepted f inBuf n :=
    fun hf => h (eq_zero_of_formatOf_eq_rfc hf)
  refine ⟨fun hfmt => ?_, fun hfmt hcap => ?_, ?_, ?_, ?_, ?_, ?_, ?_, ?_⟩
  · rw [runCommand, if_pos hfmt, outcomeBadFmt]
  · rw [hcode hfmt]
    exact runCommand_of_long_input f hcap op inBuf
  · rintro hfmt hn rfl hlen
    rw [hcode hfmt]
    exact runCommand_encode_of_long_text hn hlen
  · rintro hfmt hn rfl hlen
    rw [hcode hfmt]
    exact runCommand_encode_of_fits hn hlen
  · rintro hfmt hn rfl hzero
    rw [hcode hfmt, runCommand_decode_of_fits hn, hzero]
    rfl
  · rintro hfmt hn rfl hlen
    rw [hfmt]
    exact (runCommand_decode_of_fits (f := .rfc) hn).trans (decodeText_of_length hlen)
  · rintro hfmt hn rfl hlen hbad
    rw [hfmt]
    exact (runCommand_decode_of_fits (f := .rfc) hn).trans (decodeText_of_padding hlen hbad)
  · rintro hfmt hn rfl hpad i hi hnone hskips hbefore
    rw [hcode hfmt, runCommand_decode_of_fits hn]
    exact decodeText_of_first_illegal (haccepted hpad) (hm ▸ hi) hnone hskips hbefore
  · rintro hfmt hn rfl hpad hall
    rw [hcode hfmt, runCommand_decode_of_fits hn]
    obtain ⟨bytes, hbytes⟩ := decodeText_of_scansPast (haccepted hpad) (hm ▸ hall)
    exact ⟨bytes, hbytes, hbytes⟩

/-! ## The codes that are never produced -/

theorem kind_of_decodeText_err {f : Format} {t : List Byte} {k : ErrKind} {c : ErrCtx} (h : decodeText f t = .err k c) :
    k = .invalidLength ∨ k = .invalidPadding ∨ k = .illegalCharacter := by
  cases f with
  | rfc => exact kind_of_decodeText_rfc_err h
  | crk => exact .inr (.inr (kind_of_scan_err (decodeText_crk t ▸ h)))

/-- No command fails with InvalidArgument (R222): neither the checks of R230 before decode nor decode itself does. -/
theorem runCommand_err_ne_invalidArgument {cap : Nat} {op : BitVec 1} {fmt : BitVec 2} {n : Nat} {inByte : Nat → Byte}
    {k : ErrKind} {c : ErrCtx} (h : runCommand cap op fmt n inByte = .err k c) : k ≠ .invalidArgument := by
  cases hfmt : fmt.getLsbD 1 with
  | true =>
    rw [runCommand_of_reserved hfmt] at h
    cases h
    exact nofun
  | false =>
    rw [← code_formatOf hfmt] at h
    obtain rfl | rfl : op = 0 ∨ op = 1 := op.eq_zero_or_eq_one
    · rw [runCommand_encode] at h
      split_ifs at h <;> cases h <;> exact nofun
    · rw [runCommand_decode] at h
      split_ifs at h
      · cases h
        exact nofun
      · obtain rfl | rfl | rfl := kind_of_decodeText_err h <;> exact nofun

/-- The values of STATUS.ERR that are no reserved code (R76, R222): 0, 1 and 3 to 6. -/
def errInUse (e : BitVec 4) : Prop := e ≠ 2 ∧ e.toNat < 7

theorem errInUse_zero : errInUse 0 := ⟨by decide, by decide⟩

theorem errInUse_code {k : ErrKind} (h : k ≠ .invalidArgument) : errInUse k.code := by
  cases k with
  | invalidArgument => exact absurd rfl h
  | invalidOption | invalidLength | invalidPadding | illegalCharacter | capacityExceeded =>
    exact ⟨by decide, by decide⟩

/-- A completion writes 0 or the code of the command's error (R197). -/
theorem engineTurn_errInUse {s : State} (h : errInUse s.err) : errInUse s.engineTurn.err := by
  cases hb : s.busy with
  | false => rwa [engineTurn_of_idle hb]
  | true =>
    rw [engineTurn_of_busy hb]
    cases hout : s.outcome with
    | ok bytes => exact errInUse_zero
    | err k c => exact errInUse_code (runCommand_err_ne_invalidArgument hout)

/-- A transaction keeps ERR or, as a START, clears it (R40). -/
theorem exec_errInUse {i : Instr} {s t : State} (h : exec i s = .next t) (hs : errInUse s.err) : errInUse t.err := by
  obtain ⟨_, _, he⟩ | ⟨_, _, _, _, he⟩ := exec_next_flags h
  · rwa [he]
  · rw [he]
    exact errInUse_zero

theorem step_errInUse {s t : State} (h : step s = .next t) (hs : errInUse s.err) : errInUse t.err := by
  obtain ⟨w, rest, _, hx⟩ | ⟨rest, _, rfl⟩ | ⟨rest, _, rfl⟩ | ⟨_, rfl⟩ := step_next_cases h
  · exact exec_errInUse hx hs
  · exact engineTurn_errInUse (s := s.setInputs rest) hs
  · exact errInUse_zero
  · exact engineTurn_errInUse hs

/-- Settles O25: no command's outcome has the kind InvalidArgument, so no step writes a reserved code. -/
theorem reservedErrorCodesAreNeverProduced : Obligations.ReservedErrorCodesAreNeverProduced :=
  ⟨fun _ _ _ _ _ _ h => runCommand_err_ne_invalidArgument h rfl, fun _ _ h h2 h7 => step_errInUse h ⟨h2, h7⟩⟩

end Sys2Proof.Machine
end

section
/-! PROOFS. The family of spec/30_encoding.md: encode and decode are inverse (R70, R77), every word falls in exactly one
row (R74, R77), and the two spellings of a write to CTRL mean the same (R79). -/

namespace Sys2Proof

/-! ## Command words -/

/-- The form of a command word, by START, OP and FMT (R74). -/
def commandForm (start : Bool) (op : BitVec 1) (fmt : BitVec 2) (r : Reserved) : Instr :=
  if !start then .config op fmt r
  else if fmt.getLsbD 1 then .cmdBadFmt op fmt r
  else if op = 0 then (if fmt = 0 then .encodeRfc r else .encodeCrk r)
  else (if fmt = 0 then .decodeRfc r else .decodeCrk r)

/-- The rows of R74, tried in order, decide by the four bits that their masks read. -/
theorem decodeCtrl_eq (w : Word) :
    decodeCtrl w = commandForm (w.getLsbD 0) (ctrlOp w) (ctrlFmt w) (ctrlReserved w) := by
  obtain ⟨hconfig, hencRfc, hencCrk, hdecRfc, hdecCrk, _⟩ := ctrl_hits w
  rw [decodeCtrl, hconfig, hencRfc, hencCrk, hdecRfc, hdecCrk, ctrlOp_eq, ctrlFmt_eq]
  generalize w.getLsbD 0 = start, w.getLsbD 4 = op, w.getLsbD 8 = fmt0, w.getLsbD 9 = fmt1
  cases start with
  | false => rfl
  | true => cases fmt1 <;> cases op <;> cases fmt0 <;> rfl

theorem decode_ctrlWord (st op : BitVec 1) (fmt : BitVec 2) (r : Reserved) :
    decode (.ctrl (ctrlWord st op fmt r)) = commandForm (st.getLsbD 0) op fmt r := by
  obtain ⟨hop, hfmt, hr, hst, _⟩ := fields_ctrlWord st op fmt r
  rw [decode, decodeCtrl_eq, hop, hfmt, hr, hst]

/-- Both bits of FMT: a format that is not reserved is 0 or 1 (R71). -/
theorem fmt_cases (fmt : BitVec 2) : fmt.getLsbD 1 = true ∨ fmt = 0 ∨ fmt = 1 := by
  revert fmt
  decide

/-- Each form is well-formed and its encoding has the fields that name it (R74). -/
theorem commandForm_facts (start : Bool) (op : BitVec 1) (fmt : BitVec 2) (r : Reserved) :
    (commandForm start op fmt r).wf = true ∧
      encode (commandForm start op fmt r) = .ctrl (ctrlWord (BitVec.ofBool start) op fmt r) := by
  cases start with
  | false => exact ⟨rfl, rfl⟩
  | true =>
    obtain hreserved | rfl | rfl := fmt_cases fmt
    · have hform : commandForm true op fmt r = .cmdBadFmt op fmt r := if_pos hreserved
      rw [hform]
      exact ⟨hreserved, rfl⟩
    all_goals
      obtain rfl | rfl := op.eq_zero_or_eq_one
      all_goals exact ⟨rfl, rfl⟩

/-- A command word is its fields (R70). -/
theorem ctrlWord_fields (w : Word) :
    ctrlWord (BitVec.ofBool (w.getLsbD 0)) (ctrlOp w) (ctrlFmt w) (ctrlReserved w) = w := by
  apply BitVec.eq_of_getLsbD_eq
  intro i hi
  rw [getLsbD_ctrlWord]
  interval_cases i <;> simp [ctrlOp, ctrlFmt, ctrlReserved]

/-! ## Descriptors -/

/-- The transaction row of a descriptor's fields (R77, R51). -/
def transaction (we : Bool) (sz win : BitVec 2) (idx : BitVec 16) (data : Word) : Instr :=
  if sz.getLsbD 0 then .badSize we sz (windowOffset win idx) (if we then data else 0)
  else if win = 0 then regTransaction we (sz.getLsbD 1) idx data
  else if win = 1 then inTransaction we (sz.getLsbD 1) idx data
  else if win = 2 then outTransaction we (sz.getLsbD 1) idx data
  else .reservedSpace we sz idx (if we then data else 0)

theorem decode_descriptor (we : Bool) (sz win : BitVec 2) (idx : BitVec 16) (data : Word) :
    decode (.bus (descriptor we sz (windowOffset win idx)) data) = transaction we sz win idx data := by
  obtain ⟨hwe, hsz, hwin, hidx, hoff⟩ := fields_descriptor we sz win idx
  rw [decode, decodeBus, hwe, hsz, hwin, hidx, hoff]
  rfl

/-- A descriptor is its fields (R77). -/
theorem descriptor_fields (d : BitVec 21) :
    descriptor (busWe d) (busSz d) (windowOffset (busWindow d) (busIndex d)) = d := by
  apply BitVec.eq_of_getLsbD_eq
  intro i hi
  rw [getLsbD_descriptor]
  interval_cases i <;> simp [busWe, busSz, busWindow, busIndex]

theorem decode_bus (d : BitVec 21) (data : Word) :
    decode (.bus d data) = transaction (busWe d) (busSz d) (busWindow d) (busIndex d) data := by
  conv_lhs => rw [← descriptor_fields d]
  exact decode_descriptor ..

/-- A supported size is 1 or 4 (R77). -/
theorem sz_cases (sz : BitVec 2) : sz.getLsbD 0 = true ∨ sz = 0 ∨ sz = 2 := by
  revert sz
  decide

/-- The four windows of the map (R51). -/
theorem win_cases (win : BitVec 2) : win = 0 ∨ win = 1 ∨ win = 2 ∨ win = 3 := by
  revert win
  decide

/-- Each transaction is well-formed and its encoding has the fields that name it, a read without data (R77). -/
theorem transaction_facts (we : Bool) (sz win : BitVec 2) (idx : BitVec 16) (data : Word) :
    (transaction we sz win idx data).wf = true ∧
      encode (transaction we sz win idx data) =
        .bus (descriptor we sz (windowOffset win idx)) (if we then data else 0) := by
  obtain hbad | hsupported := sz_cases sz
  · have hrow : transaction we sz win idx data = .badSize we sz (windowOffset win idx) (if we then data else 0) :=
      if_pos hbad
    rw [hrow]
    exact ⟨by cases we <;> simp [Instr.wf, hbad], rfl⟩
  · obtain rfl | rfl := hsupported
    all_goals
      obtain rfl | rfl | rfl | rfl := win_cases win
      all_goals cases we <;> exact ⟨rfl, rfl⟩

/-! ## Decode and encode are inverse -/

/-- Settles O1: the encoding has the fields that name the instruction's row, and the decoder reads them back. -/
theorem decodeOfEncodeIsTheInstruction : Obligations.DecodeOfEncodeIsTheInstruction := by
  intro i hwf
  cases i with
  | config op fmt r => exact decode_ctrlWord 0 op fmt r
  | encodeRfc r => exact decode_ctrlWord 1 0 0 r
  | encodeCrk r => exact decode_ctrlWord 1 0 1 r
  | decodeRfc r => exact decode_ctrlWord 1 1 0 r
  | decodeCrk r => exact decode_ctrlWord 1 1 1 r
  | cmdBadFmt op fmt r =>
    have hreserved : fmt.getLsbD 1 = true := hwf
    exact (decode_ctrlWord 1 op fmt r).trans (if_pos hreserved)
  | rd32Reg off => exact decode_descriptor false 2 0 off 0
  | wr32Reg off data => exact decode_descriptor true 2 0 off data
  | rd8Reg off => exact decode_descriptor false 0 0 off 0
  | wr8Reg off data => exact decode_descriptor true 0 0 off data
  | rd8In idx => exact decode_descriptor false 0 1 idx 0
  | rd8Out idx => exact decode_descriptor false 0 2 idx 0
  | wr8In idx data => exact decode_descriptor true 0 1 idx data
  | wr8Out idx data => exact decode_descriptor true 0 2 idx data
  | rd32In idx => exact decode_descriptor false 2 1 idx 0
  | rd32Out idx => exact decode_descriptor false 2 2 idx 0
  | wr32In idx data => exact decode_descriptor true 2 1 idx data
  | wr32Out idx data => exact decode_descriptor true 2 2 idx data
  | reservedSpace we sz idx data =>
    obtain ⟨hsz, hdata⟩ := Bool.and_eq_true_iff.mp hwf
    have hread : (if we then data else 0) = data := by cases we <;> simp_all
    refine (decode_descriptor we sz 3 idx data).trans ?_
    rw [transaction, if_neg (by simpa using hsz), hread]
    rfl
  | badSize we sz off data =>
    obtain ⟨hsz, hdata⟩ := Bool.and_eq_true_iff.mp hwf
    have hread : (if we then data else 0) = data := by cases we <;> simp_all
    rw [← offset_split off]
    refine (decode_descriptor we sz _ _ data).trans ?_
    rw [transaction, if_pos hsz, hread]

/-- A read's data lanes are 0 in a canonical wire (R77). -/
theorem data_of_canonical {d : BitVec 21} {data : Word} (h : (Wire.bus d data).canonical = true) :
    (if busWe d then data else 0) = data := by
  cases hwe : busWe d <;> simp_all [Wire.canonical]

/-- Settles O2: a wire is its fields, and the decoded row encodes to the same fields. -/
theorem encodeOfDecodeIsTheWire : Obligations.EncodeOfDecodeIsTheWire := by
  intro w
  cases w with
  | ctrl w =>
    obtain ⟨hwf, henc⟩ := commandForm_facts (w.getLsbD 0) (ctrlOp w) (ctrlFmt w) (ctrlReserved w)
    rw [decode, decodeCtrl_eq]
    exact ⟨hwf, fun _ => by rw [henc, ctrlWord_fields]⟩
  | bus d data =>
    obtain ⟨hwf, henc⟩ := transaction_facts (busWe d) (busSz d) (busWindow d) (busIndex d) data
    rw [decode_bus]
    exact ⟨hwf, fun hcan => by rw [henc, descriptor_fields, data_of_canonical hcan]⟩

/-! ## Exactly one row -/

/-- The one row of an instruction's wire, over all constructors. -/
theorem rowForm (i : Instr) : Laws.RowForm.Statement i := by
  cases i with
  | config op fmt r => exact Laws.RowForm.config op fmt r
  | encodeRfc r => exact Laws.RowForm.encodeRfc r
  | encodeCrk r => exact Laws.RowForm.encodeCrk r
  | decodeRfc r => exact Laws.RowForm.decodeRfc r
  | decodeCrk r => exact Laws.RowForm.decodeCrk r
  | cmdBadFmt op fmt r => exact Laws.RowForm.cmdBadFmt op fmt r
  | rd32Reg off => exact Laws.RowForm.rd32Reg off
  | wr32Reg off data => exact Laws.RowForm.wr32Reg off data
  | rd8Reg off => exact Laws.RowForm.rd8Reg off
  | wr8Reg off data => exact Laws.RowForm.wr8Reg off data
  | rd8In idx => exact Laws.RowForm.rd8In idx
  | rd8Out idx => exact Laws.RowForm.rd8Out idx
  | wr8In idx data => exact Laws.RowForm.wr8In idx data
  | wr8Out idx data => exact Laws.RowForm.wr8Out idx data
  | rd32In idx => exact Laws.RowForm.rd32In idx
  | rd32Out idx => exact Laws.RowForm.rd32Out idx
  | wr32In idx data => exact Laws.RowForm.wr32In idx data
  | wr32Out idx data => exact Laws.RowForm.wr32Out idx data
  | reservedSpace we sz idx data => exact Laws.RowForm.reservedSpace we sz idx data
  | badSize we sz off data => exact Laws.RowForm.badSize we sz off data

theorem ctrlRows_of_encode {i : Instr} {w : Word} (hwf : i.wf = true) (henc : encode i = .ctrl w) :
    (ctrlRows.filter (·.hit w)).map Row.mnemonic = [i.mnemonic] := by
  have hrow := rowForm i hwf
  rwa [henc] at hrow

theorem busRows_of_encode {i : Instr} {d : BitVec 21} {data : Word} (hwf : i.wf = true)
    (henc : encode i = .bus d data) : (busRows.filter (·.hit d)).map Row.mnemonic = [i.mnemonic] := by
  have hrow := rowForm i hwf
  rwa [henc] at hrow

/-- Settles O3: the word is the encoding of what it decodes to, which its one row names; each clause fixes the fields
that decide the form. -/
theorem commandWordFallsInExactlyOneForm : Obligations.CommandWordFallsInExactlyOneForm := by
  intro w
  obtain ⟨hwf, henc⟩ := encodeOfDecodeIsTheWire (.ctrl w)
  refine ⟨ctrlRows_of_encode hwf (henc rfl), ?_⟩
  have hform : decode (.ctrl w) = commandForm (w.getLsbD 0) (w.extractLsb' 4 1) (w.extractLsb' 8 2) (ctrlReserved w) :=
    decodeCtrl_eq w
  have hfmt1 : (w.extractLsb' 8 2).getLsbD 1 = w.getLsbD 9 := by simp
  rw [hform]
  refine ⟨fun h0 => ?_, fun h0 hop hfmt => ?_, fun h0 hop hfmt => ?_, fun h0 hop hfmt => ?_, fun h0 hop hfmt => ?_,
    fun h0 h9 => ?_⟩
  · rw [h0]; rfl
  · rw [h0, hop, hfmt]; rfl
  · rw [h0, hop, hfmt]; rfl
  · rw [h0, hop, hfmt]; rfl
  · rw [h0, hop, hfmt]; rfl
  · rw [h0]
    exact if_pos (hfmt1.trans h9)

/-- Settles O4: the descriptor is that of the encoded transaction, whatever the data lanes are. -/
theorem descriptorFallsInExactlyOneRow : Obligations.DescriptorFallsInExactlyOneRow := by
  intro d data
  obtain ⟨hwf, henc⟩ := transaction_facts (busWe d) (busSz d) (busWindow d) (busIndex d) data
  rw [decode_bus]
  rw [descriptor_fields] at henc
  exact busRows_of_encode hwf henc

/-- Settles O5, by running the decoder on the twenty words. -/
theorem specWordsDecodeToTheirInstructions : Obligations.SpecWordsDecodeToTheirInstructions := by
  unfold Obligations.SpecWordsDecodeToTheirInstructions
  decide

end Sys2Proof

namespace Sys2Proof.Machine

/-! ## The two spellings of a write to CTRL -/

/-- A command form means the write of CTRL with its fields, whatever the reserved bits are (R74, R75). -/
theorem exec_commandForm (start : Bool) (op : BitVec 1) (fmt : BitVec 2) (r : Reserved) (s : State) :
    exec (commandForm start op fmt r) s = .next ((s.acceptCtrl start op fmt).respond .written) := by
  cases start with
  | false => rfl
  | true =>
    obtain hreserved | rfl | rfl := fmt_cases fmt
    · have hform : commandForm true op fmt r = .cmdBadFmt op fmt r := if_pos hreserved
      rw [hform]
      rfl
    all_goals
      obtain rfl | rfl := op.eq_zero_or_eq_one
      all_goals rfl

/-- Settles O13: either spelling is the write of CTRL with the fields of the word. -/
theorem commandWordMeansItsWriteToCtrl : Obligations.CommandWordMeansItsWriteToCtrl := by
  intro w s
  calc exec (.wr32Reg 0x00 w) s
    _ = .next ((s.acceptCtrl (w.getLsbD 0) (ctrlOp w) (ctrlFmt w)).respond .written) := exec_wr32Reg_offset .ctrl w s
    _ = exec (decode (.ctrl w)) s := by rw [decode, decodeCtrl_eq, exec_commandForm]

end Sys2Proof.Machine
end

section
/-! PROOFS. The codec: the trailing `=` count (R123), the length of a successful decode (R169), and the two reference
datapaths, which compute the whole functions (R141 to R145, R166, R168). -/

namespace Sys2Proof.Machine

/-! ## The trailing `=` count -/

/-- The last `k` bytes of a text are the first `k` of the reversed text. -/
theorem forall_mem_last {t : List Byte} (k : Nat) (P : Byte → Prop) :
    (∀ b ∈ t.drop (t.length - k), P b) ↔ ∀ b ∈ t.reverse.take k, P b := by
  simp [List.take_reverse]

theorem trailingEq_le (t : List Byte) : trailingEq t ≤ t.length := by
  rw [trailingEq, ← List.length_reverse (as := t)]
  exact (List.takeWhile_prefix _).length_le

theorem trailingEq_all_pad (t : List Byte) : ∀ b ∈ t.reverse.take (trailingEq t), b = padByte := by
  intro b hb
  rw [trailingEq, ← List.prefix_iff_eq_take.mp (List.takeWhile_prefix _)] at hb
  simpa using List.mem_takeWhile_imp hb

/-- A run of `=` at the end lies within the count. -/
theorem le_trailingEq {t : List Byte} {k : Nat} (hk : k ≤ t.length) (h : ∀ b ∈ t.reverse.take k, b = padByte) :
    k ≤ trailingEq t := by
  have hrun : t.reverse.takeWhile (· == padByte) =
      t.reverse.take k ++ (t.reverse.drop k).takeWhile (· == padByte) := by
    rw [← List.takeWhile_append_of_pos (by simpa using h), List.take_append_drop]
  rw [trailingEq, hrun, List.length_append, List.length_take, List.length_reverse]
  omega

/-- Settles O44, on the reversed text, where the count is the length of the leading run of `=`. -/
theorem trailingCountIsTheGreatest : Obligations.TrailingCountIsTheGreatest := fun t =>
  ⟨trailingEq_le t, (forall_mem_last _ _).mpr (trailingEq_all_pad t),
    fun k hk h => le_trailingEq hk ((forall_mem_last k _).mp h)⟩

/-! ## The length of a successful decode -/

/-- A scan that succeeds, and what it decodes to. -/
theorem values_of_result_ok {r : Scan} {bytes : List Byte} (h : r.result = .ok bytes) :
    ∃ vs, r = .values vs ∧ bytes = unpack vs := by
  cases r with
  | values vs => cases h; exact ⟨vs, rfl, rfl⟩
  | illegal b pos => cases h

/-- A decode succeeds only on a text whose length and padding are accepted. -/
theorem accepted_of_decodeText_ok {f : Format} {t bytes : List Byte} (h : decodeText f t = .ok bytes) (hf : f = .rfc) :
    ∃ m, padCheck t.length (trailingEq t) = .ok m := by
  subst hf
  rw [decodeText_rfc] at h
  cases hv : padCheck t.length (trailingEq t) with
  | ok m => exact ⟨m, rfl⟩
  | invalidLength => rw [hv] at h; cases h
  | invalidPadding => rw [hv] at h; cases h

/-- Five bits for every data symbol that is not skipped (R168). -/
theorem length_of_decodeText_ok {f : Format} {t bytes : List Byte} (h : decodeText f t = .ok bytes) :
    bytes.length = 5 * ((dataSymbols f t).filter fun c => !skips f c).length / 8 := by
  rw [decodeText_of_accepted (accepted_of_decodeText_ok h)] at h
  obtain ⟨vs, hscan, rfl⟩ := values_of_result_ok h
  rw [length_unpack, length_of_scan hscan]

theorem length_dataSymbols_le (f : Format) (t : List Byte) : (dataSymbols f t).length ≤ t.length := by
  cases f with
  | rfc => exact List.length_take_le' _ _
  | crk => exact le_rfl

theorem length_decodeText_le {f : Format} {t bytes : List Byte} (h : decodeText f t = .ok bytes) :
    bytes.length ≤ t.length := by
  have hlen := length_of_decodeText_ok h
  have hfilter := List.length_filter_le (fun c => !skips f c) (dataSymbols f t)
  have hdata := length_dataSymbols_le f t
  omega

/-- RFC4648 skips no byte: the data symbols are all that stands before the padding (R162). -/
theorem length_decodeText_rfc {t bytes : List Byte} (h : decodeText .rfc t = .ok bytes) :
    bytes.length = 5 * (t.length - trailingEq t) / 8 := by
  have hall : ((dataSymbols .rfc t).filter fun c => !skips .rfc c) = dataSymbols .rfc t :=
    List.filter_eq_self.mpr fun _ _ => rfl
  rw [length_of_decodeText_ok h, hall, dataSymbols, List.length_take, Nat.min_eq_left (Nat.sub_le ..)]

/-- Settles O51: five bits a data symbol, of which the padding of an accepted text leaves one of five counts. -/
theorem decodeHasItsLength : Obligations.DecodeHasItsLength := by
  refine fun t bytes => ⟨fun f => length_decodeText_le, fun h => ?_, fun h => ?_⟩
  · rw [length_of_decodeText_ok h, filter_not_skips_crk, dataSymbols]
  · obtain ⟨m, hm⟩ := accepted_of_decodeText_ok h rfl
    obtain ⟨hlen, hp, _⟩ := (padCheck_eq_ok_iff _ _ _).mp hm
    have hle := trailingEq_le t
    have hbytes := length_decodeText_rfc h
    omega

/-! ## The encoder by groups -/

/-- Values are determined by their bits. -/
theorem eq_of_flatMap_bits5_eq {vs ws : List (BitVec 5)} (h : vs.flatMap bits5 = ws.flatMap bits5) : vs = ws := by
  have hlen : vs.length = ws.length := by
    have hbits := congrArg List.length h
    simp only [length_flatMap_bits5] at hbits
    omega
  rw [← map_field_flatMap vs [], ← map_field_flatMap ws [], hlen]
  exact List.map_congr_left fun j _ => congrArg (fun bs => BitVec.ofNat 5 (num (field 5 (bs ++ []) j))) h

/-- A full group of 5 bytes needs no bit of the next group (R141). -/
theorem paddedBits_append {g : List Byte} (hg : g.length = 5) (rest : List Byte) :
    paddedBits (g ++ rest) = g.flatMap bits8 ++ paddedBits rest := by
  have hzeros : 5 * symbolCount (g ++ rest).length - 8 * (g ++ rest).length =
      5 * symbolCount rest.length - 8 * rest.length := by
    simp only [symbolCount, List.length_append, hg]
    omega
  rw [paddedBits, paddedBits, hzeros, List.flatMap_append, List.append_assoc]

theorem paddedBits_of_full {g : List Byte} (hg : g.length = 5) : paddedBits g = g.flatMap bits8 := by
  simp [paddedBits, symbolCount, hg]

theorem valuesOf_append {g : List Byte} (hg : g.length = 5) (rest : List Byte) :
    valuesOf (g ++ rest) = valuesOf g ++ valuesOf rest := by
  apply eq_of_flatMap_bits5_eq
  rw [List.flatMap_append, bits_valuesOf, bits_valuesOf, bits_valuesOf, paddedBits_append hg, paddedBits_of_full hg]

/-- The low bits of the accumulator are the last of the buffered bits. -/
theorem extract_low (acc : BitVec 64) {bs : List Bool} (hn : acc.toNat = num bs) {q : Nat} (hq : q ≤ bs.length) :
    (acc.extractLsb' 0 q).toNat = num (bs.drop (bs.length - q)) := by
  have hrest : (bs.drop (bs.length - q)).length = q := by rw [List.length_drop]; omega
  have hlt := num_lt (bs.drop (bs.length - q))
  rw [hrest] at hlt
  rw [BitVec.extractLsb'_toNat, hn, Nat.shiftRight_zero]
  conv_lhs => rw [← List.take_append_drop (bs.length - q) bs]
  rw [num_append, hrest, Nat.mul_comm, Nat.mul_add_mod, Nat.mod_eq_of_lt hlt]

theorem num_append_zeros (bs : List Bool) (k : Nat) : num (bs ++ List.replicate k false) = num bs * 2 ^ k := by
  have hzeros : num (List.replicate k false) = 0 := by
    induction k with
    | zero => rfl
    | succ k ih => rw [List.replicate_succ, num_cons, ih]; simp
  rw [num_append, hzeros, List.length_replicate, Nat.add_zero]

/-- A field that lies in the first part of a bit string is a field of that part. -/
theorem field_append_left {w j : Nat} {xs : List Bool} (ys : List Bool) (h : w * (j + 1) ≤ xs.length) :
    field w (xs ++ ys) j = field w xs j := by
  rw [← field_take (xs ++ ys) h, List.take_left]

/-- The values of the full 5-bit fields of a group (R142). -/
def fullValues (g : List Byte) : List (BitVec 5) :=
  (List.range (8 * g.length / 5)).map fun j => BitVec.ofNat 5 (num (field 5 (g.flatMap bits8) j))

/-- The bits of a group after its full fields (R143). -/
def leftoverBits (g : List Byte) : List Bool := (g.flatMap bits8).drop (8 * g.length - 8 * g.length % 5)

/-- The leftover bits shifted left over zeros (R143). -/
def lastValue (g : List Byte) : BitVec 5 := BitVec.ofNat 5 (num (leftoverBits g) * 2 ^ (5 - 8 * g.length % 5))

/-- The full fields of a group see no bit of the zeros after it. -/
theorem map_field_paddedBits (g : List Byte) :
    (List.range (8 * g.length / 5)).map (fun j => BitVec.ofNat 5 (num (field 5 (paddedBits g) j))) = fullValues g := by
  refine List.map_congr_left fun j hj => ?_
  have hj := List.mem_range.mp hj
  rw [paddedBits, field_append_left _ (by rw [length_flatMap_bits8]; omega)]

theorem valuesOf_of_no_leftover {g : List Byte} (hq : 8 * g.length % 5 = 0) : valuesOf g = fullValues g := by
  have hcount : symbolCount g.length = 8 * g.length / 5 := by simp only [symbolCount]; omega
  rw [valuesOf, hcount, map_field_paddedBits]

theorem valuesOf_of_leftover {g : List Byte} (hq : 8 * g.length % 5 ≠ 0) :
    valuesOf g = fullValues g ++ [lastValue g] := by
  have hbits : (g.flatMap bits8).length = 8 * g.length := length_flatMap_bits8 g
  have hcount : symbolCount g.length = 8 * g.length / 5 + 1 := by simp only [symbolCount]; omega
  have hlast : field 5 (paddedBits g) (8 * g.length / 5) =
      leftoverBits g ++ List.replicate (5 - 8 * g.length % 5) false := by
    have hstart : 5 * (8 * g.length / 5) = 8 * g.length - 8 * g.length % 5 := by omega
    have hzeros : 5 * symbolCount g.length - 8 * g.length = 5 - 8 * g.length % 5 := by omega
    rw [field, hstart, paddedBits, hzeros, List.drop_append_of_le_length (by omega), leftoverBits,
      List.take_of_length_le]
    rw [List.length_append, List.length_drop, List.length_replicate, hbits]
    omega
  rw [valuesOf, hcount, List.range_succ, List.map_append, map_field_paddedBits, List.map_singleton, hlast,
    num_append_zeros, lastValue]

/-- The last symbol of a partial group: the leftover bits shifted left over zeros (R143). -/
theorem shifted_rest {q : Nat} (hq : q < 5) (x : BitVec q) :
    x.setWidth 5 <<< (5 - q) = BitVec.ofNat 5 (x.toNat * 2 ^ (5 - q)) := by
  apply BitVec.eq_of_toNat_eq
  have hx : x.toNat < 2 ^ 5 := x.isLt.trans (Nat.pow_lt_pow_right (by omega) hq)
  rw [BitVec.toNat_shiftLeft, BitVec.toNat_setWidth, Nat.mod_eq_of_lt hx, Nat.shiftLeft_eq, BitVec.toNat_ofNat]

/-- One group through the accumulator writes the symbols of its values (R142, R143). -/
theorem groupSymbols_eq (f : Format) {g : List Byte} (hg : g.length ≤ 8) :
    groupSymbols f g = (valuesOf g).map (encMap f) := by
  have hbits : (g.flatMap bits8).length = 8 * g.length := length_flatMap_bits8 g
  have hacc := packGroup_bits g hg
  have hfull : (List.range (8 * g.length / 5)).map
      (fun j => encMap f ((packGroup g).extractLsb' (8 * g.length - 5 * (j + 1)) 5)) =
        (fullValues g).map (encMap f) := by
    rw [fullValues, List.map_map]
    refine List.map_congr_left fun j hj => ?_
    have hj := List.mem_range.mp hj
    rw [← hbits, extract_field _ _ hacc 5 j (by omega)]
    rfl
  rw [groupSymbols, hfull]
  split
  · next hq => rw [valuesOf_of_no_leftover hq]
  · next hq =>
    have hrest : ((packGroup g).extractLsb' 0 (8 * g.length % 5)).toNat = num (leftoverBits g) := by
      rw [extract_low _ hacc (by omega), hbits, leftoverBits]
    rw [valuesOf_of_leftover hq, shifted_rest (Nat.mod_lt _ (by omega)), hrest, List.map_append, List.map_singleton,
      lastValue]

/-- What is left when no full group is. -/
theorem length_lt_of_not_full {d : List Byte}
    (h : ∀ b0 b1 b2 b3 b4 rest, d = b0 :: b1 :: b2 :: b3 :: b4 :: rest → False) : d.length < 5 := by
  match d with
  | [] | [_] | [_, _] | [_, _, _] | [_, _, _, _] => simp
  | b0 :: b1 :: b2 :: b3 :: b4 :: rest => exact (h b0 b1 b2 b3 b4 rest rfl).elim

theorem encodeGroups_eq (f : Format) (d : List Byte) : encodeGroups f d = (valuesOf d).map (encMap f) := by
  induction d using encodeGroups.induct with
  | case1 b0 b1 b2 b3 b4 rest ih =>
    have hsplit : b0 :: b1 :: b2 :: b3 :: b4 :: rest = [b0, b1, b2, b3, b4] ++ rest := rfl
    rw [encodeGroups, ih, groupSymbols_eq f (by simp), hsplit, valuesOf_append rfl, List.map_append]
  | case2 => rfl
  | case3 d hfull hne =>
    have hlen : d.length ≤ 8 := (length_lt_of_not_full hfull).le.trans (by omega)
    rw [encodeGroups, groupSymbols_eq f hlen]
    · exact hfull
    · exact hne

theorem packGroup_lt {g : List Byte} (hg : g.length ≤ 5) : (packGroup g).toNat < 2 ^ 40 := by
  rw [packGroup_bits g (by omega)]
  refine (num_lt _).trans_le (Nat.pow_le_pow_right (by omega) ?_)
  rw [length_flatMap_bits8]
  omega

/-- Settles O48: each group writes the symbols of its values, and the values of the data are those of its groups. -/
theorem groupedEncoderComputesEncode : Obligations.GroupedEncoderComputesEncode :=
  ⟨fun f d => by rw [encodeByGroups, encodeGroups_eq, ← encodeSymbols_eq, encodeText], fun _ => packGroup_lt⟩

/-! ## The decoder on the accumulator -/

/-- The datapath of a scan (R166): fewer than 8 values are buffered in ACC, NBITS counts their bits, and IDX counts the
bytes read. -/
structure Buffers (dp : Datapath) (i : Nat) (vs : List (BitVec 5)) : Prop where
  few : vs.length < 8
  bits : dp.nbits.val = 5 * vs.length
  acc : dp.acc.toNat = num (vs.flatMap bits5)
  idx : dp.idx = BitVec.ofNat 32 i

theorem buffers_start : Buffers .start 0 [] := ⟨by decide, rfl, rfl, rfl⟩

/-- A skipped byte counts in IDX only (R164). -/
theorem Buffers.skip {dp : Datapath} {i : Nat} {vs : List (BitVec 5)} (h : Buffers dp i vs) :
    Buffers { dp with idx := dp.idx + 1 } (i + 1) vs :=
  { h with idx := (congrArg (· + 1) h.idx).trans (BitVec.ofNat_add i 1).symm }

/-- The accumulator after one more value. -/
theorem Buffers.push {dp : Datapath} {i : Nat} {vs : List (BitVec 5)} (h : Buffers dp i vs) (v : BitVec 5) :
    ((dp.acc <<< 5) ||| v.setWidth 64).toNat = num ((vs ++ [v]).flatMap bits5) := by
  have hfew := h.few
  have hacc : dp.acc.toNat < 2 ^ (5 * vs.length) := by
    rw [h.acc, ← length_flatMap_bits5]
    exact num_lt _
  rw [(toNat_push dp.acc (5 * vs.length) 5 v (by omega) hacc).1, h.acc, List.flatMap_append, num_append]
  simp [bits5, num_bitsMsb]

/-- The bytes of the values that an accumulator holds, taken from it (R166). -/
theorem map_accByte {acc : BitVec 64} {vs : List (BitVec 5)} (h : acc.toNat = num (vs.flatMap bits5)) :
    (List.range (5 * vs.length / 8)).map (accByte acc (5 * vs.length)) = unpack vs := by
  have hbits : (vs.flatMap bits5).length = 5 * vs.length := length_flatMap_bits5 vs
  refine List.map_congr_left fun j hj => ?_
  have hj := List.mem_range.mp hj
  rw [accByte, ← hbits, extract_field _ _ h 8 j (by omega)]

/-- After the scan the buffered values yield their whole bytes. -/
theorem Buffers.flush {dp : Datapath} {i : Nat} {vs : List (BitVec 5)} (h : Buffers dp i vs) :
    dp.flush = unpack vs := by
  rw [Datapath.flush, h.bits, map_accByte h.acc]

/-- The eighth value empties the accumulator into 5 bytes (R166). -/
theorem Buffers.shiftIn_full {dp : Datapath} {i : Nat} {vs : List (BitVec 5)} (h : Buffers dp i vs)
    (hfull : vs.length = 7) (v : BitVec 5) :
    Buffers (dp.shiftIn v).1 (i + 1) [] ∧ (dp.shiftIn v).2 = unpack (vs ++ [v]) := by
  have hn : dp.nbits.val + 5 = 40 := by rw [h.bits, hfull]
  rw [Datapath.shiftIn, if_pos hn]
  refine ⟨⟨by decide, rfl, rfl, h.skip.idx⟩, ?_⟩
  have hemit := map_accByte (h.push v)
  have hlen : (vs ++ [v]).length = 8 := by rw [List.length_append, hfull, List.length_singleton]
  rwa [hlen] at hemit

/-- Any other value is buffered. -/
theorem Buffers.shiftIn_more {dp : Datapath} {i : Nat} {vs : List (BitVec 5)} (h : Buffers dp i vs)
    (hmore : vs.length < 7) (v : BitVec 5) : Buffers (dp.shiftIn v).1 (i + 1) (vs ++ [v]) ∧ (dp.shiftIn v).2 = [] := by
  have hlen : (vs ++ [v]).length = vs.length + 1 := List.length_append
  have hn : dp.nbits.val + 5 = 5 * (vs ++ [v]).length := by rw [h.bits, hlen, Nat.mul_succ]
  rw [Datapath.shiftIn, if_neg (by omega)]
  refine ⟨⟨by omega, ?_, h.push v, h.skip.idx⟩, rfl⟩
  rw [hn]
  exact Nat.mod_eq_of_lt (by omega)

/-- Eight values are five whole bytes. -/
theorem unpack_append {gs : List (BitVec 5)} (hg : gs.length = 8) (vs : List (BitVec 5)) :
    unpack (gs ++ vs) = unpack gs ++ unpack vs := by
  have hbits : (gs.flatMap bits5).length = 8 * 5 := by rw [length_flatMap_bits5, hg]
  have hcount : 5 * (gs ++ vs).length / 8 = 5 + 5 * vs.length / 8 := by rw [List.length_append, hg]; omega
  have hfirst : ∀ j ∈ List.range 5, BitVec.ofNat 8 (num (field 8 (gs.flatMap bits5 ++ vs.flatMap bits5) j)) =
      BitVec.ofNat 8 (num (field 8 (gs.flatMap bits5) j)) := by
    intro j hj
    have hj := List.mem_range.mp hj
    rw [field_append_left _ (by omega)]
  rw [unpack, unpack, unpack, hcount, hg, List.flatMap_append, List.range_add, List.map_append, List.map_map,
    List.map_congr_left hfirst]
  refine congrArg _ (List.map_congr_left fun j _ => ?_)
  rw [Function.comp_apply, field, Nat.mul_add, ← hbits, ← List.drop_drop, List.drop_left, field]

/-- The outcome of a scan when `out` was emitted and `vs` is buffered. -/
def Scan.resultAfter (out : List Byte) (vs : List (BitVec 5)) : Scan → Result
  | .values ws => .ok (out ++ unpack (vs ++ ws))
  | .illegal b pos => .failByte b pos

theorem Scan.resultAfter_cons (out : List Byte) (vs : List (BitVec 5)) (v : BitVec 5) (r : Scan) :
    (r.cons v).resultAfter out vs = r.resultAfter out (vs ++ [v]) := by
  cases r <;> simp [Scan.cons, Scan.resultAfter]

theorem Scan.resultAfter_full {vs : List (BitVec 5)} (hfull : vs.length = 8) (out : List Byte) (r : Scan) :
    r.resultAfter (out ++ unpack vs) [] = r.resultAfter out vs := by
  cases r <;> simp [Scan.resultAfter, unpack_append hfull]

/-- The scan on the datapath finds what the whole scan finds (R163 to R166). -/
theorem scan_eq {f : Format} {dp : Datapath} {i : Nat} {vs : List (BitVec 5)} (h : Buffers dp i vs) (out : List Byte)
    (t : List Byte) : Datapath.scan f dp out t = (scanFrom f i t).resultAfter out vs := by
  induction t generalizing dp i vs out with
  | nil => rw [Datapath.scan, h.flush, scanFrom, Scan.resultAfter, List.append_nil]
  | cons c t ih =>
    rw [Datapath.scan, scanFrom]
    split
    · exact ih h.skip out
    · cases decMap f c with
      | none =>
        have hpos : dp.idx + 1 = BitVec.ofNat 32 (i + 1) := h.skip.idx
        rw [Scan.resultAfter, Result.failByte, ← hpos]
      | some v =>
        simp only [Scan.resultAfter_cons]
        obtain hfull | hmore : vs.length = 7 ∨ vs.length < 7 := by have := h.few; omega
        · obtain ⟨hnext, hemit⟩ := h.shiftIn_full hfull v
          rw [ih hnext, hemit, Scan.resultAfter_full (by simp [hfull])]
        · obtain ⟨hnext, hemit⟩ := h.shiftIn_more hmore v
          rw [ih hnext, hemit, List.append_nil]

theorem scan_start_eq (f : Format) (t : List Byte) : Datapath.scan f .start [] t = (scanFrom f 0 t).result := by
  rw [scan_eq buffers_start]
  cases scanFrom f 0 t <;> rfl

theorem decodeByDatapath_eq (f : Format) (t : List Byte) : decodeByDatapath f t = decodeText f t := by
  cases f with
  | crk =>
    cases t with
    | nil => rfl
    | cons c t => exact scan_start_eq .crk (c :: t)
  | rfc =>
    cases t with
    | nil => rfl
    | cons c t =>
      rw [decodeText_rfc, decodeByDatapath.eq_def, if_neg (List.cons_ne_nil c t)]
      cases padCheck (c :: t).length (trailingEq (c :: t)) with
      | invalidLength => rfl
      | invalidPadding => rfl
      | ok m => exact scan_start_eq .rfc ((c :: t).take m)

/-- NBITS stays a multiple of 5 below 40 and ACC within NBITS bits (R166, R169). -/
theorem shiftIn_bounds {dp : Datapath} (v : BitVec 5) (h5 : dp.nbits.val % 5 = 0) (h40 : dp.nbits.val < 40)
    (hacc : dp.acc.toNat < 2 ^ dp.nbits.val) :
    (dp.shiftIn v).1.nbits.val % 5 = 0 ∧ (dp.shiftIn v).1.nbits.val < 40 ∧
      (dp.shiftIn v).1.acc.toNat < 2 ^ (dp.shiftIn v).1.nbits.val := by
  rw [Datapath.shiftIn]
  split
  · exact ⟨rfl, Nat.zero_lt_succ 39, Nat.one_pos⟩
  · next hmore =>
    have hn : (Fin.ofNat 41 (dp.nbits.val + 5)).val = dp.nbits.val + 5 := Nat.mod_eq_of_lt (by omega)
    obtain ⟨hpush, hlt⟩ := toNat_push dp.acc dp.nbits.val 5 v (by omega) hacc
    simp only [hn]
    exact ⟨by omega, by omega, hpush ▸ hlt⟩

/-- Settles O49: the datapath buffers the values that the whole scan finds, and emits their bytes in groups of 8. -/
theorem accumulatorDecoderComputesDecode : Obligations.AccumulatorDecoderComputesDecode :=
  ⟨decodeByDatapath_eq, fun _ => shiftIn_bounds⟩

end Sys2Proof.Machine
end

section
/-! PROOFS. The machine as a whole: what a step does with its input (spec/20_memory.md R58), reset
(spec/70_reset_and_hazards.md R250), runs of accepted inputs (R60, R220), and the frozen operands of a running command
(R65, R195). -/

namespace Sys2Proof.Machine

/-! ## One step -/

/-- Settles O6: each kind of input, and the empty list, by the definition of a step. -/
theorem stepRunsTheDecodedInstruction : Obligations.StepRunsTheDecodedInstruction := by
  intro s rest
  refine ⟨fun w hin => ?_, fun hin => ?_, fun hin => ?_, fun hin => ?_⟩ <;> rw [step, hin] <;> rfl

/-- Settles O7: the word's wire is the first input, and the state without it is the state itself. -/
theorem fetchedTableWordRunsNext : Obligations.FetchedTableWordRunsNext := by
  intro s nbits w i hdec
  obtain ⟨x, hx, rfl⟩ := Option.map_eq_some_iff.mp hdec
  have hstate : s.withFetchWord nbits w = s.setInputs (.wire x :: s.inputs) := by
    rw [State.withFetchWord, State.withTableWire, hx]
  rw [hstate]
  rfl

/-! ## Reset -/

/-- Every register but CAPACITY reads 0 when the operands, the flags and the record are clear (R250). -/
theorem readReg_of_clear {s : State} (hop : s.op = 0) (hfmt : s.fmt = 0) (hidle : s.busy = false)
    (hdone : s.done = false) (hlen : s.inLen = 0) (hrec : s.recordClear) {r : Reg} (h : r ≠ .capacity) :
    s.readReg r = 0 := by
  obtain ⟨herr, hout, hbyte, hpos, hcount⟩ := hrec
  cases r with
  | ctrl => rw [State.readReg, State.ctrlView, hop, hfmt]; rfl
  | status => rw [State.readReg, State.statusView, herr, hdone, hidle]; rfl
  | inLen => exact hlen
  | outLen => exact hout
  | errByte => rw [State.readReg, hbyte]; rfl
  | errPos => exact hpos
  | errCount => exact hcount
  | capacity => exact absurd rfl h

/-- Settles O8, field by field of the reset pulse. -/
theorem resetLeavesTheStateOfRule250 : Obligations.ResetLeavesTheStateOfRule250 := fun _ =>
  ⟨fun _ => readReg_of_clear rfl rfl rfl rfl rfl ⟨rfl, rfl, rfl, rfl, rfl⟩, rfl, rfl, rfl, rfl, rfl, rfl,
    fun _ => ⟨rfl, rfl⟩, fun _ _ => ⟨rfl, rfl⟩, rfl, engineTurn_of_idle rfl, rfl⟩

/-- BUF_CAP lies within its bounds (R6). -/
theorem reset_sized : State.reset.sized := by
  have hlt := Config.bufCapAboveLeast.isLt
  simp only [State.sized, State.reset, Config.bufCap]
  omega

/-- Settles O9, field by field of the power-on state. -/
theorem powerOnStateIsThatOfReset : Obligations.PowerOnStateIsThatOfReset :=
  ⟨fun _ => readReg_of_clear rfl rfl rfl rfl rfl ⟨rfl, rfl, rfl, rfl, rfl⟩, rfl, reset_sized.1, reset_sized.2,
    fun _ => ⟨rfl, rfl⟩, rfl⟩

/-! ## What no transaction changes -/

/-- No effect of a transaction touches CAPACITY, the inputs or the reset count. -/
theorem Effect.frame {i : Instr} {s u : State} (h : Effect i s u) :
    u.capacity = s.capacity ∧ u.inputs = s.inputs ∧ u.resets = s.resets := by
  cases h with
  | quiet | config | start | inLen | inByte | inWord => exact ⟨rfl, rfl, rfl⟩

theorem exec_next_frame {i : Instr} {s t : State} (h : exec i s = .next t) :
    t.capacity = s.capacity ∧ t.inputs = s.inputs ∧ t.resets = s.resets := by
  obtain ⟨u, r, he, rfl⟩ := exec_next_effect h
  exact he.frame

/-- A step takes one input off the list and keeps CAPACITY (R58, R34). -/
theorem step_next_frame {s t : State} (h : step s = .next t) : t.capacity = s.capacity ∧ t.inputs = s.inputs.tail := by
  obtain ⟨w, rest, hin, hx⟩ | ⟨rest, hin, rfl⟩ | ⟨rest, hin, rfl⟩ | ⟨hin, rfl⟩ := step_next_cases h
  · obtain ⟨hcap, hinputs, _⟩ := exec_next_frame hx
    exact ⟨hcap, by rw [hinputs, hin]; rfl⟩
  · obtain ⟨_, _, _, _, hcap, hinputs, _⟩ := engineTurn_frame (s.setInputs rest)
    exact ⟨hcap, by rw [hinputs, hin]; rfl⟩
  · exact ⟨rfl, by rw [hin]; rfl⟩
  · obtain ⟨_, _, _, _, hcap, hinputs, _⟩ := engineTurn_frame s
    exact ⟨hcap, by rw [hinputs, hin]; rfl⟩

/-- Settles O14: no step changes the capacity, and the register is read-only. -/
theorem capacityNeverChanges : Obligations.CapacityNeverChanges := by
  refine ⟨fun s t h => (step_next_frame h).1, fun s w => ?_, fun s => exec_rd32Reg_offset .capacity s⟩
  exact exec_wr32Reg_of_ignored (writeReg_of_readOnly (r := .capacity) (by decide) s w)

/-! ## Runs of accepted inputs -/

/-- Every input still to come is one that the map accepts. -/
def State.inputsAccepted (s : State) : Prop := ∀ x ∈ s.inputs, x.accepted s.capacity = true

/-- A step answers next when the next input, if there is one, is accepted (R60). -/
theorem step_of_accepted {s : State} (h : ∀ x rest, s.inputs = x :: rest → x.accepted s.capacity = true) :
    ∃ t, step s = .next t := by
  rw [step]
  cases hin : s.inputs with
  | nil => exact ⟨_, rfl⟩
  | cons x rest =>
    cases x with
    | wire w =>
      obtain ⟨haccept, _⟩ := exec_mapDecides (decode w) (s.setInputs rest)
      exact haccept (h (.wire w) rest hin)
    | engine => exact ⟨_, rfl⟩
    | reset => exact ⟨_, rfl⟩

theorem run_succ_of_step {M : Host.Core} {s t : M.State} (h : M.step s = .next t) (k : Nat) :
    M.run (k + 1) s = M.run k t := by
  rw [Host.Core.run, h]

theorem safeRun_of_inputsAccepted (k : Nat) {s : State} (h : s.inputsAccepted) : safeRun k s := by
  induction k generalizing s with
  | zero => exact ⟨s, rfl⟩
  | succ k ih =>
    obtain ⟨t, hstep⟩ := step_of_accepted fun x rest hin => h x (hin ▸ List.mem_cons_self)
    obtain ⟨hcap, hinputs⟩ := step_next_frame hstep
    have ht : t.inputsAccepted := fun x hx => by
      rw [hcap]
      exact h x (List.mem_of_mem_tail (hinputs ▸ hx))
    rw [safeRun, run_succ_of_step (M := core) hstep]
    exact ih ht

/-- Settles O57: a step takes one accepted input and leaves the others accepted. -/
theorem acceptedInputsNeverStopTheMachine : Obligations.AcceptedInputsNeverStopTheMachine :=
  fun k _ => safeRun_of_inputsAccepted k

/-! ## A running command -/

/-- The later state is the earlier one with some answer and some draw counter (R59). -/
theorem sameButAnswer_iff {s t : State} : s.sameButAnswer t ↔ ∃ r d, t = { s with response := r, draws := d } := by
  constructor
  · exact fun h => ⟨_, _, h⟩
  · rintro ⟨r, d, rfl⟩
    rfl

theorem sameButAnswer_trans {s t u : State} (hst : s.sameButAnswer t) (htu : t.sameButAnswer u) :
    s.sameButAnswer u := by
  obtain ⟨r, d, rfl⟩ := sameButAnswer_iff.mp hst
  obtain ⟨r', d', rfl⟩ := sameButAnswer_iff.mp htu
  rfl

/-- While BUSY no transaction stores anything (R194): every effect but the use of draws needs an idle core. -/
theorem exec_of_busy {i : Instr} {s t : State} (hb : s.busy = true) (h : exec i s = .next t) : s.sameButAnswer t := by
  obtain ⟨u, r, he, rfl⟩ := exec_next_effect h
  cases he with
  | quiet k => rfl
  | config idle | start idle | inLen idle | inByte idle | inWord idle => simp [hb] at idle

theorem runWires_of_busy {ws : List Wire} {s t : State} (hb : s.busy = true) (h : runWires ws s = .next t) :
    s.sameButAnswer t := by
  induction ws generalizing s with
  | nil => cases h; rfl
  | cons w ws ih =>
    rw [runWires] at h
    split at h
    · next u hw =>
      have hsu := exec_of_busy hb hw
      have hbu : u.busy = true := by rw [hsu]; exact hb
      exact sameButAnswer_trans hsu (ih hbu h)
    · cases h
    · cases h

/-- The answer and the draw counter have no part in an outcome; a completion keeps the one and takes a draw of the
other. -/
theorem engineTurn_of_sameButAnswer {s t : State} (hb : s.busy = true) (h : s.sameButAnswer t) :
    t.busy = true ∧ t.outcome = s.outcome ∧
      t.engineTurn = { s.engineTurn with
        response := t.response, draws := t.draws + 1, datapath := Datapath.unspecified t.draws } := by
  obtain ⟨r, d, rfl⟩ := sameButAnswer_iff.mp h
  refine ⟨hb, rfl, ?_⟩
  have hout : ({ s with response := r, draws := d } : State).outcome = s.outcome := rfl
  rw [engineTurn_of_busy hb, engineTurn_of_busy (s := { s with response := r, draws := d }) hb, hout]
  cases s.outcome <;> rfl

/-- Settles O27: the transactions change only the answer and the draw counter. -/
theorem operandsAreFrozenWhileBusy : Obligations.OperandsAreFrozenWhileBusy :=
  fun _ _ _ hb h => engineTurn_of_sameButAnswer hb (runWires_of_busy hb h)

/-! ## A command completes -/

/-- The engine's turn comes when it is listed next, or nothing is (R196). -/
theorem step_completes {s : State} (hb : s.busy = true)
    (hin : s.inputs = [] ∨ ∃ later, s.inputs = .engine :: later) :
    ∃ t, step s = .next t ∧ t.busy = false ∧ t.done = true := by
  obtain hin | ⟨later, hin⟩ := hin
  · exact ⟨s.engineTurn, by rw [step, hin]; rfl, engineTurn_done hb⟩
  · exact ⟨(s.setInputs later).engineTurn, by rw [step, hin]; rfl, engineTurn_done (s := s.setInputs later) hb⟩

/-- A transaction leaves a running command running. -/
theorem step_wire_of_busy {s : State} {w : Wire} {rest : List Input} (hb : s.busy = true)
    (hin : s.inputs = .wire w :: rest) (hacc : (Input.wire w).accepted s.capacity = true) :
    ∃ t, step s = .next t ∧ t.busy = true ∧ t.capacity = s.capacity ∧ t.inputs = rest := by
  obtain ⟨haccept, _⟩ := exec_mapDecides (decode w) (s.setInputs rest)
  obtain ⟨t, hexec⟩ := haccept hacc
  have hsame : (s.setInputs rest).sameButAnswer t := exec_of_busy hb hexec
  exact ⟨t, by rw [step, hin]; exact hexec, by rw [hsame]; exact hb, by rw [hsame]; rfl, by rw [hsame]; rfl⟩

/-- Settles O58, by induction on the inputs up to the engine's turn: an engine's turn among them ends the command, and
each transaction leaves it running with one input less. -/
theorem everyCommandCompletes : Obligations.EveryCommandCompletes := by
  intro s pre rest hb hin hacc hreset hrest
  have hnow {s' : State} {n : Nat} (h : ∃ t, step s' = .next t ∧ t.busy = false ∧ t.done = true) :
      ∃ k t, k ≤ n + 1 ∧ core.run k s' = .next t ∧ t.busy = false ∧ t.done = true := by
    obtain ⟨t, hstep, hdone⟩ := h
    exact ⟨1, t, by omega, run_succ_of_step (M := core) hstep 0, hdone⟩
  induction pre generalizing s with
  | nil =>
    rw [List.nil_append] at hin
    exact hnow (step_completes hb (by rwa [hin]))
  | cons x pre ih =>
    obtain ⟨haccx, haccpre⟩ := List.forall_mem_cons.mp hacc
    obtain ⟨hx, hpre⟩ := List.ne_and_not_mem_of_not_mem_cons hreset
    cases x with
    | reset => exact absurd rfl hx
    | engine => exact hnow (step_completes hb (.inr ⟨_, hin⟩))
    | wire w =>
      obtain ⟨t, hstep, hbt, hcap, hint⟩ := step_wire_of_busy hb hin haccx
      obtain ⟨k, u, hk, hrun, hdone⟩ := ih t hbt hint (hcap ▸ haccpre) hpre
      refine ⟨k + 1, u, ?_, (run_succ_of_step (M := core) hstep k).trans hrun, hdone⟩
      rw [List.length_cons]
      omega

end Sys2Proof.Machine
end

section
/-! PROOFS. What the host reads and writes: the address map (spec/20_memory.md R50), the commands from START to the
reads of their result (spec/44_host_interface.md R193 to R198), and the buffers (R36, R55, R57, R198, R200). -/

namespace Sys2Proof.Machine

/-! ## The address map -/

theorem windowOffset?_eq_some_iff (a : Nat) (off : BitVec 18) :
    windowOffset? a = some off ↔ physicalAddress off = a := by
  have hoff := off.isLt
  rw [windowOffset?, physicalAddress]
  split
  · next hin =>
    rw [Option.some_inj, ← BitVec.toNat_inj, BitVec.toNat_ofNat, Nat.mod_eq_of_lt (by omega)]
    omega
  · next hout => exact ⟨nofun, fun h => absurd (by omega) hout⟩

/-- Settles O40: the two maps are inverse, and the window is where the second one answers. -/
theorem windowIsFortyThousandHexBytes : Obligations.WindowIsFortyThousandHexBytes := by
  refine ⟨fun off => (windowOffset?_eq_some_iff _ off).mpr rfl, fun a => ?_,
    fun a off => (windowOffset?_eq_some_iff a off).mp⟩
  rw [windowOffset?]
  split
  · next hin => exact iff_of_true rfl hin
  · next hout => exact iff_of_false nofun hout

/-! ## Commands: issue -/

theorem exec_decodeCrk_of_idle {s : State} (h : s.busy = false) (rsv : Reserved) :
    exec (.decodeCrk rsv) s = .next (s.started 1 1) := by
  rw [exec, execDecodeCrk, acceptCtrl_start h, State.started]

/-- Settles O15: an idle core starts each of the five commands. -/
theorem commandStartClearsTheRecord : Obligations.CommandStartClearsTheRecord := fun _ rsv hidle =>
  ⟨exec_encodeRfc_of_idle hidle rsv, exec_encodeCrk_of_idle hidle rsv, exec_decodeRfc_of_idle hidle rsv,
    exec_decodeCrk_of_idle hidle rsv, fun op fmt => exec_cmdBadFmt_of_idle hidle op fmt rsv⟩

/-! ## Buffer reads -/

section
variable {s : State} {idx : BitVec 16}

theorem exec_rd8In (hmap : s.mapsByte idx = true) :
    exec (.rd8In idx) s = .next (s.respond (.read (wordOfByte (s.inByte idx.toNat)))) := by
  rw [exec, execRd8In, if_pos hmap]

theorem exec_rd8Out (hmap : s.mapsByte idx = true) :
    exec (.rd8Out idx) s = .next ((s.useDraws 1).respond (.read (wordOfByte (s.outByte s.draws idx.toNat)))) := by
  rw [exec, execRd8Out, if_pos hmap]

theorem exec_rd32In (hmap : s.mapsWord idx = true) :
    exec (.rd32In idx) s = .next (s.respond (.read (s.inWord idx.toNat))) := by
  rw [exec, execRd32In, if_pos hmap]

theorem exec_rd32Out (hmap : s.mapsWord idx = true) :
    exec (.rd32Out idx) s = .next ((s.useDraws 4).respond (.read (s.outWord idx.toNat))) := by
  rw [exec, execRd32Out, if_pos hmap]

end

/-- In a legal state no OUT_BUF byte is defined from OUT_LEN on, and none while BUSY, where OUT_LEN is 0 (R36, R27). -/
theorem read?_outBuf_of_legal {s : State} (h : s.Legal) {i : Nat} (hi : s.busy = true ∨ s.outLen.toNat ≤ i) :
    s.outBuf.read? i = none := by
  obtain ⟨_, ⟨_, _, hkeys, _⟩, ⟨hdone, hclear⟩, _⟩ := h
  have hle : s.outLen.toNat ≤ i := by
    obtain hb | hle := hi
    · obtain ⟨_, hlen, _⟩ := hclear (hdone hb)
      rw [hlen]
      exact Nat.zero_le i
    · exact hle
  apply read?_eq_none_of_not_mem
  rw [hkeys, List.mem_range]
  omega

/-- Settles O29: the two reads by their definitions; where no byte is defined the read is a draw. -/
theorem byteReadReturnsTheByteOrADraw : Obligations.ByteReadReturnsTheByteOrADraw := by
  intro s idx hidx
  have hmap := (mapsByte_iff s idx).mpr hidx
  refine ⟨exec_rd8In hmap, exec_rd8Out hmap, fun hlegal hundef => (exec_rd8Out hmap).trans ?_⟩
  rw [State.outByte, read?_outBuf_of_legal hlegal hundef]
  rfl

/-- Settles O31: the two reads by their definitions. -/
theorem wordReadIsLittleEndian : Obligations.WordReadIsLittleEndian := fun s idx halign hidx =>
  have hmap := (mapsWord_iff s idx).mpr ⟨halign, hidx⟩
  ⟨exec_rd32In hmap, exec_rd32Out hmap⟩

/-! ## While a command runs -/

/-- While BUSY a write to CTRL leaves only its answer, in every command form (R194). -/
theorem next_acceptCtrl_of_busy {s : State} (hb : s.busy = true) (start : Bool) (op : BitVec 1) (fmt : BitVec 2) :
    (Host.Outcome.next ((s.acceptCtrl start op fmt).respond .written) : Host.Outcome State Fault Refusal) =
      .next { s with response := .written } := by
  rw [acceptCtrl_of_busy hb]
  rfl

/-- Settles O17: no write is taken, and the reads are those of any state. -/
theorem writesWhileBusyHaveNoEffect : Obligations.WritesWhileBusyHaveNoEffect := by
  intro s hb
  have hctrl := next_acceptCtrl_of_busy hb
  have hreg (r : Reg) (w : Word) : exec (.wr32Reg r.offset w) s = .next { s with response := .written } :=
    exec_wr32Reg_of_ignored (writeReg_of_busy hb r w)
  refine ⟨fun op fmt _ => hctrl false op fmt, fun _ => ⟨hctrl true 0 0, hctrl true 0 1, hctrl true 1 0, hctrl true 1 1⟩,
    fun op fmt _ => hctrl true op fmt, fun w => ⟨hreg .ctrl w, hreg .inLen w⟩, fun idx w hidx => ?_,
    fun idx w halign hidx => ?_, fun r => exec_rd32Reg_offset r s, fun idx hidx => ?_, fun idx halign hidx => ?_⟩
  · exact exec_wr8In_of_busy ((mapsByte_iff s idx).mpr hidx) hb w
  · exact exec_wr32In_of_busy ((mapsWord_iff s idx).mpr ⟨halign, hidx⟩) hb w
  · have hmap := (mapsByte_iff s idx).mpr hidx
    exact ⟨exec_rd8In hmap, exec_rd8Out hmap⟩
  · have hmap := (mapsWord_iff s idx).mpr ⟨halign, hidx⟩
    exact ⟨exec_rd32In hmap, exec_rd32Out hmap⟩

/-- Settles O11: while BUSY a legal state has DONE = 0, and then a clear record. -/
theorem busyReadsShowNoResult : Obligations.BusyReadsShowNoResult := by
  intro s ⟨_, _, ⟨hdone, hclear⟩, _⟩ hb
  have hdone := hdone hb
  obtain ⟨herr, hlen, hbyte, hpos, hcount⟩ := hclear hdone
  have hread {r : Reg} {v : Word} (h : s.readReg r = v) :
      exec (.rd32Reg r.offset) s = .next { s with response := .read v } := h ▸ exec_rd32Reg_offset r s
  refine ⟨hread (r := .status) ?_, hread (r := .outLen) hlen, hread (r := .errByte) ?_, hread (r := .errPos) hpos,
    hread (r := .errCount) hcount⟩
  · rw [State.readReg, State.statusView, herr, hdone, hb]
    rfl
  · rw [State.readReg, hbyte]
    rfl

/-! ## Commands: completion -/

theorem engineTurn_draws {s : State} (hb : s.busy = true) :
    s.engineTurn.draws = s.draws + 1 ∧ s.engineTurn.datapath = Datapath.unspecified s.draws := by
  rw [engineTurn_of_busy hb]
  cases s.outcome with
  | ok bytes => exact ⟨rfl, rfl⟩
  | err k c => exact ⟨rfl, rfl⟩

/-- Settles O18: what each outcome shows, and the frame of an engine turn. -/
theorem completionPublishesTheOutcome : Obligations.CompletionPublishesTheOutcome := by
  intro s
  obtain ⟨hop, hfmt, hinLen, hinBuf, hcap, hinputs, hresets, hresponse⟩ := engineTurn_frame s
  exact ⟨engineTurn_of_idle, fun _ => engineTurn_shows_ok, fun _ _ => engineTurn_shows_err, hop, hfmt, hinLen, hinBuf,
    hcap, hresponse, hinputs, hresets, engineTurn_draws⟩

theorem kind_of_decodeText_crk_err {t : List Byte} {k : ErrKind} {c : ErrCtx} (h : decodeText .crk t = .err k c) :
    k = .illegalCharacter := kind_of_scan_err (decodeText_crk t ▸ h)

/-- Settles O23: an idle core starts the command, and the completion is that of the format Crockford. -/
theorem decodeCrkShowsItsResult : Obligations.DecodeCrkShowsItsResult := by
  intro s rsv hidle
  obtain ⟨hcap, hok, herr⟩ := decode_shows .crk s
  exact ⟨s.started 1 1, exec_decodeCrk_of_idle hidle rsv, rfl, hcap, hok,
    fun k c hn hdec => ⟨herr k c hn hdec, kind_of_decodeText_crk_err hdec⟩⟩

/-- The bytes that a command does not read have no part in its outcome (R195). -/
theorem runCommand_congr (cap : Nat) (op : BitVec 1) (fmt : BitVec 2) {n : Nat} {inByte inByte' : Nat → Byte}
    (h : ∀ i, i < n → inByte i = inByte' i) : runCommand cap op fmt n inByte = runCommand cap op fmt n inByte' := by
  have hinput : bufferInput inByte n = bufferInput inByte' n :=
    List.map_congr_left fun i hi => h i (List.mem_range.mp hi)
  cases hfmt : fmt.getLsbD 1 with
  | true => rw [runCommand_of_reserved hfmt, runCommand_of_reserved hfmt]
  | false =>
    rw [← code_formatOf hfmt]
    obtain rfl | rfl : op = 0 ∨ op = 1 := op.eq_zero_or_eq_one
    · rw [runCommand_encode, runCommand_encode, hinput]
    · rw [runCommand_decode, runCommand_decode, hinput]

/-- Settles O26: a command runs on its operands, and on FMT alone where that is reserved. -/
theorem outcomeDependsOnlyOnTheOperands : Obligations.OutcomeDependsOnlyOnTheOperands := by
  refine ⟨fun s t hcap hop hfmt hlen hbytes => ?_, fun s t hfmt hreserved => ?_⟩
  · rw [State.outcome, State.outcome, ← hcap, ← hop, ← hfmt, ← hlen, runCommand_congr _ _ _ hbytes]
  · rw [State.outcome, State.outcome, runCommand_of_reserved hreserved, runCommand_of_reserved (hfmt ▸ hreserved), hfmt]

/-- Settles O28: the completion shows the bytes, and the reads return what it shows. -/
theorem resultIsReadableOnceDone : Obligations.ResultIsReadableOnceDone := by
  intro s bytes hb hout
  obtain ⟨hidle, hdone, herr, _, _, _, hlen, hbytes⟩ := engineTurn_shows_ok hb hout
  obtain ⟨_, _, _, _, hcap, _⟩ := engineTurn_frame s
  have hread {r : Reg} {v : Word} (h : s.engineTurn.readReg r = v) :
      exec (.rd32Reg r.offset) s.engineTurn = .next { s.engineTurn with response := .read v } :=
    h ▸ exec_rd32Reg_offset r s.engineTurn
  refine ⟨hread (r := .status) ?_, hread (r := .outLen) hlen, fun idx hidx hmapped => ?_⟩
  · rw [State.readReg, State.statusView, herr, hdone, hidle]
    rfl
  · have hbyte : s.engineTurn.outByte s.engineTurn.draws idx.toNat = bytes[idx.toNat] := by
      rw [State.outByte, hbytes, List.getElem?_eq_getElem hidx, Option.getD_some]
    rw [exec_rd8Out ((mapsByte_iff _ _).mpr (hcap ▸ hmapped)), hbyte]
    rfl

/-! ## Accesses of both widths -/

/-- A word is its four lanes (R55). -/
theorem eq_of_lanes {v w : Word} (h : ∀ k, k < 4 → lane v k = lane w k) : v = w := by
  apply BitVec.eq_of_getLsbD_eq
  intro i hi
  have hbit := congrArg (fun b : Byte => b.getLsbD (i % 8)) (h (i / 8) (by omega))
  have hpos : 8 * (i / 8) + i % 8 = i := Nat.div_add_mod i 8
  simpa [lane, hpos, Nat.mod_lt i (show 0 < 8 by decide)] using hbit

theorem lane_wordOfBytes (b : Nat → Byte) {k : Nat} (hk : k < 4) :
    lane (wordOfBytes (b 0) (b 1) (b 2) (b 3)) k = b k := by
  apply BitVec.eq_of_getLsbD_eq
  intro i hi
  simp only [lane, wordOfBytes, BitVec.getLsbD_extractLsb', BitVec.getLsbD_append, decide_eq_true hi, Bool.true_and]
  interval_cases k
  · rw [if_pos (by omega)]; simp
  · rw [if_neg (by omega), if_pos (by omega), Nat.add_sub_cancel_left]
  · rw [if_neg (by omega), if_neg (by omega), if_pos (by omega), Nat.sub_sub, Nat.add_sub_cancel_left]
  · rw [if_neg (by omega), if_neg (by omega), if_neg (by omega), Nat.sub_sub, Nat.sub_sub, Nat.add_sub_cancel_left]

/-- A size-4 read shows each byte as a size-1 read does (R57). -/
theorem lane_inWord (s : State) (i : Nat) {k : Nat} (hk : k < 4) : lane (s.inWord i) k = s.inByte (i + k) :=
  lane_wordOfBytes (fun k => s.inByte (i + k)) hk

theorem inByte_setInWord (s : State) (i : Nat) (w : Word) {k : Nat} (hk : k < 4) :
    (s.setInWord i w).inByte (i + k) = lane w k := by
  rw [State.inByte, read?_setInWord_lane s i w hk, Option.getD_some]

theorem inByte_setInByte (s : State) (i a : Nat) (b : Byte) :
    (s.setInByte i b).inByte a = if a = i then b else s.inByte a := by
  rw [State.inByte, setInByte_inBuf, read?_write]
  split <;> rfl

@[simp] theorem respond_inByte (r : Response) (s : State) (i : Nat) : (s.respond r).inByte i = s.inByte i := rfl

@[simp] theorem respond_inWord (r : Response) (s : State) (i : Nat) : (s.respond r).inWord i = s.inWord i := rfl

/-- No transaction changes what the map accepts. -/
theorem exec_next_mapsByte {i : Instr} {s t : State} (h : exec i s = .next t) (idx : BitVec 16) :
    t.mapsByte idx = s.mapsByte idx := by
  rw [State.mapsByte, State.mapsByte, (exec_next_frame h).1]

theorem exec_next_mapsWord {i : Instr} {s t : State} (h : exec i s = .next t) (idx : BitVec 16) :
    t.mapsWord idx = s.mapsWord idx := by
  rw [State.mapsWord, State.mapsWord, (exec_next_frame h).1]

/-- No byte of an aligned word lies past the last index of the window. -/
theorem toNat_index_add {idx : BitVec 16} (halign : idx.toNat % 4 = 0) {k : Nat} (hk : k < 4) :
    (idx + BitVec.ofNat 16 k).toNat = idx.toNat + k := by
  have hidx := idx.isLt
  rw [BitVec.toNat_add, BitVec.toNat_ofNat]
  omega

/-- Settles O33: a word reads as its lanes, each of them the byte that was stored last. -/
theorem mixedWidthAccessesAgree : Obligations.MixedWidthAccessesAgree := by
  intro s idx w hidle halign hidx
  have hmap := (mapsWord_iff s idx).mpr ⟨halign, hidx⟩
  have hbyte {k : Nat} (hk : k < 4) : s.mapsByte (idx + BitVec.ofNat 16 k) = true := by
    rw [mapsByte_iff, toNat_index_add halign hk]
    omega
  refine ⟨?_, fun k b hk => ?_⟩
  · have hwrite := exec_wr32In_of_idle hmap hidle w
    have hword : (s.setInWord idx.toNat w).inWord idx.toNat = w :=
      eq_of_lanes fun k hk => (lane_inWord _ _ hk).trans (inByte_setInWord s idx.toNat w hk)
    refine ⟨_, hwrite, ?_, fun k hk => ?_⟩
    · rw [exec_rd32In ((exec_next_mapsWord hwrite idx).trans hmap), respond_inWord, hword]
      rfl
    · rw [exec_rd8In ((exec_next_mapsByte hwrite _).trans (hbyte hk)), respond_inByte, toNat_index_add halign hk,
        inByte_setInWord s idx.toNat w hk]
      rfl
  · have hwrite := exec_wr8In_of_idle (hbyte hk) hidle b
    refine ⟨_, hwrite, _, exec_rd32In ((exec_next_mapsWord hwrite idx).trans hmap), fun j hj => ?_⟩
    refine (lane_inWord _ _ hj).trans ?_
    rw [respond_inByte, inByte_setInByte, toNat_index_add halign hk]
    exact if_congr (by omega) rfl rfl

end Sys2Proof.Machine
end

section
/-! PROOFS. The frames of the buffers and of the reads (spec/20_memory.md R59, spec/10_state.md R35, R36), and the
invariant of the machine: reset is legal and every step keeps it. -/

namespace Sys2Proof.Machine

/-! ## Reads -/

/-- A transaction that checks the map answers next only when the map accepts it (R190). -/
theorem check_eq_next_iff {b we : Bool} {cause : BusCause} {s t u : State} :
    (if b then .next u else busError we cause s) = Host.Outcome.next t ↔ b = true ∧ t = u := by
  cases b <;> simp [busError, eq_comm]

/-- The data word that a read answers with, where the map accepts it. -/
def State.readData (s : State) : Instr → Word
  | .rd32Reg off => ((regAt? off).map s.readReg).getD 0
  | .rd8In idx => wordOfByte (s.inByte idx.toNat)
  | .rd8Out idx => wordOfByte (s.outByte s.draws idx.toNat)
  | .rd32In idx => s.inWord idx.toNat
  | .rd32Out idx => s.outWord idx.toNat
  | _ => 0

/-- How many draws a read uses (log 8). -/
def drawsUsed : Instr → Nat
  | .rd8Out _ => 1
  | .rd32Out _ => 4
  | _ => 0

/-- A read that completes answers with its data word and uses its draws; nothing else changes (R59). -/
theorem exec_read_next {i : Instr} {s t : State} (hr : reads i = true) (h : exec i s = .next t) :
    t = (s.useDraws (drawsUsed i)).respond (.read (s.readData i)) := by
  cases i with
  | config | encodeRfc | encodeCrk | decodeRfc | decodeCrk | cmdBadFmt | wr32Reg | wr8Reg | wr8In | wr8Out | wr32In
  | wr32Out => cases hr
  | rd8Reg off => cases h
  | reservedSpace we sz idx data => cases h
  | badSize we sz off data => cases h
  | rd32Reg off =>
    rw [exec, execRd32Reg] at h
    cases hreg : regAt? off with
    | none => rw [hreg] at h; cases h
    | some r =>
      rw [hreg] at h
      rw [State.readData, hreg]
      exact (Host.Outcome.next.inj h).symm
  | rd8In idx => exact (check_eq_next_iff.mp h).2
  | rd8Out idx => exact (check_eq_next_iff.mp h).2
  | rd32In idx => exact (check_eq_next_iff.mp h).2
  | rd32Out idx => exact (check_eq_next_iff.mp h).2

/-- The registers and IN_BUF read the same whatever was answered and drawn before. -/
theorem readData_congr {i : Instr} (hi : ∀ idx, i ≠ .rd8Out idx ∧ i ≠ .rd32Out idx) {s s' : State}
    (h : s.sameButAnswer s') : s'.readData i = s.readData i := by
  rw [h]
  cases i with
  | rd8Out idx => exact absurd rfl (hi idx).1
  | rd32Out idx => exact absurd rfl (hi idx).2
  | rd32Reg off => rw [State.readData, State.readData]; cases regAt? off with
    | none => rfl
    | some r => cases r <;> rfl
  | _ => rfl

/-- A defined OUT_BUF byte is no draw. -/
theorem outByte_congr {s s' : State} (h : s.sameButAnswer s') {i : Nat} (hdef : (s.outBuf.read? i).isSome = true)
    (k k' : Nat) : s'.outByte k' i = s.outByte k i := by
  obtain ⟨b, hb⟩ := Option.isSome_iff_exists.mp hdef
  have hbuf : s'.outBuf = s.outBuf := by rw [h]
  rw [State.outByte, State.outByte, hbuf, hb, Option.getD_some, Option.getD_some]

/-- Two reads with the same data word have the same answer. -/
theorem response_eq_of_readData_eq {i : Instr} {s s' t u : State} (hr : reads i = true) (ht : exec i s = .next t)
    (hu : exec i s' = .next u) (h : s'.readData i = s.readData i) : u.response = t.response := by
  rw [exec_read_next hr ht, exec_read_next hr hu, respond_response, respond_response, h]

/-- Settles O34: a read uses draws and answers, and the data word depends on these only where a byte is drawn. -/
theorem readsHaveNoSideEffects : Obligations.ReadsHaveNoSideEffects := by
  refine ⟨fun i s t hr h => ?_, fun i s s' t u hr hi hsame ht hu => ?_, fun idx s s' t u hdef hsame ht hu => ?_,
    fun idx s s' t u hdef hsame ht hu => ?_⟩
  · rw [exec_read_next hr h]
    rfl
  · exact response_eq_of_readData_eq hr ht hu (readData_congr hi hsame)
  · exact response_eq_of_readData_eq rfl ht hu (congrArg wordOfByte (outByte_congr hsame hdef _ _))
  · refine response_eq_of_readData_eq rfl ht hu ?_
    have hbyte {k : Nat} (hk : k < 4) (d d' : Nat) := outByte_congr hsame (hdef k hk) d d'
    have hfirst : s'.outByte s'.draws idx.toNat = s.outByte s.draws idx.toNat := hbyte (k := 0) (by decide) _ _
    rw [State.readData, State.readData, State.outWord, State.outWord, hfirst, hbyte (by decide) (s.draws + 1),
      hbyte (by decide) (s.draws + 2), hbyte (by decide) (s.draws + 3)]

/-! ## The frames of the buffers -/

/-- IN_BUF changes only by a write to an idle core (R35, R194). -/
theorem Effect.inBuf {i : Instr} {s u : State} (h : Effect i s u) :
    u.inBuf = s.inBuf ∨ (s.busy = false ∧ ∃ idx w, (i = .wr8In idx w ∧ idx.toNat < s.capacity) ∨
      (i = .wr32In idx w ∧ idx.toNat + 3 < s.capacity)) := by
  cases h with
  | quiet | config | start | inLen => exact .inl rfl
  | inByte idle idx w hi h => exact .inr ⟨idle, idx, w, .inl ⟨hi, h⟩⟩
  | inWord idle idx w hi h => exact .inr ⟨idle, idx, w, .inr ⟨hi, h⟩⟩

theorem exec_next_inBuf {i : Instr} {s t : State} (h : exec i s = .next t) :
    t.resets = s.resets ∧ (t.inBuf = s.inBuf ∨ (s.busy = false ∧ ∃ idx w, (i = .wr8In idx w ∧ idx.toNat < s.capacity) ∨
      (i = .wr32In idx w ∧ idx.toNat + 3 < s.capacity))) := by
  obtain ⟨_, _, hresets⟩ := exec_next_frame h
  obtain ⟨u, r, he, rfl⟩ := exec_next_effect h
  exact ⟨hresets, he.inBuf⟩

theorem engineTurn_inBuf (s : State) : s.engineTurn.inBuf = s.inBuf ∧ s.engineTurn.resets = s.resets := by
  obtain ⟨_, _, _, hinBuf, _, _, hresets, _⟩ := engineTurn_frame s
  exact ⟨hinBuf, hresets⟩

/-- Settles O35: the frame of each way that a step can go. -/
theorem inBufChangesOnlyByAcceptedWritesOrReset : Obligations.InBufChangesOnlyByAcceptedWritesOrReset := by
  refine ⟨engineTurn_inBuf, fun i s t => exec_next_inBuf, fun s t h => ?_⟩
  obtain ⟨x, rest, hin, hx⟩ | ⟨rest, hin, rfl⟩ | ⟨rest, hin, rfl⟩ | ⟨hin, rfl⟩ := step_next_cases h
  · obtain ⟨hresets, hsame | ⟨hidle, idx, w, hwrite⟩⟩ := exec_next_inBuf hx
    · exact .inl ⟨hsame, hresets⟩
    · exact .inr (.inl ⟨x, rest, idx, w, hin, hidle, hresets, hwrite⟩)
  · exact .inl (engineTurn_inBuf (s.setInputs rest))
  · exact .inr (.inr ⟨rest, hin, fun _ => rfl, rfl⟩)
  · exact .inl (engineTurn_inBuf s)

/-- OUT_BUF changes only by a START, which clears it (R36, R193). -/
theorem Effect.outBuf {i : Instr} {s u : State} (h : Effect i s u) :
    (u.outBuf = s.outBuf ∧ u.outLen = s.outLen) ∨
      (starts i = true ∧ s.busy = false ∧ (∀ a, u.outBuf.read? a = Option.none) ∧ u.outLen = 0) := by
  cases h with
  | quiet | config | inLen | inByte | inWord => exact .inl ⟨rfl, rfl⟩
  | start idle hs op fmt => exact .inr ⟨hs, idle, fun _ => rfl, rfl⟩

/-- Settles O36: an accepted transaction does to OUT_BUF what its effect does. -/
theorem hostNeverWritesOutBuf : Obligations.HostNeverWritesOutBuf := by
  intro i s t h
  obtain ⟨u, r, he, rfl⟩ := exec_next_effect h
  exact he.outBuf

/-! ## The invariant: what keeps a state legal -/

/-- Settles O54: the buffers are empty and the record is clear. -/
theorem resetStateIsLegal : Obligations.ResetStateIsLegal :=
  ⟨reset_sized, ⟨wf_nil, nofun, rfl, Nat.zero_le _⟩, ⟨nofun, fun _ => ⟨rfl, rfl, rfl, rfl, rfl⟩⟩,
    .inl ⟨rfl, rfl, rfl, rfl⟩⟩

theorem legal_resetPulse {s : State} (h : s.sized) : s.resetPulse.Legal :=
  ⟨h, ⟨wf_nil, nofun, rfl, Nat.zero_le _⟩, ⟨nofun, fun _ => ⟨rfl, rfl, rfl, rfl, rfl⟩⟩, .inl ⟨rfl, rfl, rfl, rfl⟩⟩

theorem legal_startCommand {s : State} (h : s.Legal) : s.startCommand.Legal := by
  obtain ⟨hsized, ⟨hwf, hin, _⟩, _⟩ := h
  exact ⟨hsized, ⟨hwf, hin, rfl, Nat.zero_le _⟩, ⟨fun _ => rfl, fun _ => ⟨rfl, rfl, rfl, rfl, rfl⟩⟩,
    .inl ⟨rfl, rfl, rfl, rfl⟩⟩

/-- A byte stored inside BUF_CAP keeps IN_BUF canonical and inside it (R35). -/
theorem legal_setInByte {s : State} (h : s.Legal) {i : Nat} (hi : i < s.capacity) (b : Byte) :
    (s.setInByte i b).Legal := by
  obtain ⟨hsized, ⟨hwf, hin, hout⟩, hrest⟩ := h
  refine ⟨hsized, ⟨wf_write i b hwf, fun c hc => ?_, hout⟩, hrest⟩
  obtain rfl | hc := mem_write hc
  · exact hi
  · exact hin c hc

theorem legal_setInWord {s : State} (h : s.Legal) {i : Nat} (hi : i + 3 < s.capacity) (w : Word) :
    (s.setInWord i w).Legal := by
  have h0 := legal_setInByte h (i := i) (by omega) (lane w 0)
  have h1 := legal_setInByte h0 (i := i + 1) (show i + 1 < s.capacity by omega) (lane w 1)
  have h2 := legal_setInByte h1 (i := i + 2) (show i + 2 < s.capacity by omega) (lane w 2)
  exact legal_setInByte h2 (i := i + 3) hi (lane w 3)

theorem Effect.legal {i : Instr} {s u : State} (h : Effect i s u) (hs : s.Legal) : u.Legal := by
  cases h with
  | quiet k => exact hs
  | config idle op fmt => exact hs
  | start idle hstart op fmt => exact legal_startCommand (s := s.setCtrl op fmt) hs
  | inLen idle w => exact hs
  | inByte idle idx w hi h => exact legal_setInByte hs h (lane w 0)
  | inWord idle idx w hi h => exact legal_setInWord hs h w

theorem exec_legal {i : Instr} {s t : State} (h : exec i s = .next t) (hs : s.Legal) : t.Legal := by
  obtain ⟨u, r, he, rfl⟩ := exec_next_effect h
  exact he.legal hs

/-! ## The invariant: completion -/

/-- The context that an error kind allows (R224), for a buffer size: the counts of R33, R124, R125, R225 and R226, the
byte and position of R165. -/
def ErrKind.allows (cap : Nat) (c : ErrCtx) : ErrKind → Prop
  | .invalidOption => c.byte = 0 ∧ c.pos = 0 ∧ (c.count = 2 ∨ c.count = 3)
  | .invalidArgument => False
  | .invalidLength => c.byte = 0 ∧ c.pos = 0 ∧ c.count.toNat % 8 ≠ 0 ∧ c.count.toNat ≤ cap
  | .invalidPadding => c.byte = 0 ∧ c.pos = 0 ∧
      (6 < c.count.toNat ∨ c.count = 2 ∨ c.count = 5 ∨ c.count = 7) ∧ c.count.toNat ≤ cap
  | .illegalCharacter => (decRfc c.byte = none ∨ decCrk c.byte = none) ∧ 1 ≤ c.pos.toNat ∧ c.pos.toNat ≤ cap ∧
      c.count = 0
  | .capacityExceeded => c.byte = 0 ∧ c.pos = 0 ∧ cap < c.count.toNat

/-- An outcome that completion can publish: its bytes fit OUT_BUF, or its kind allows its context. -/
def Result.fits (cap : Nat) : Result → Prop
  | .ok bytes => bytes.length ≤ cap
  | .err k c => k.allows cap c

/-- Publishing such an outcome leaves its record and, on an error, no data (R197, R28). -/
theorem legal_publish {s : State} (hs : s.Legal) {r : Result} (hr : r.fits s.capacity) : (s.publish r).Legal := by
  obtain ⟨hsized, ⟨hwf, hin, _⟩, _⟩ := hs
  cases r with
  | ok bytes =>
    have hlen : (BitVec.ofNat 32 bytes.length).toNat = bytes.length := by
      have hle : bytes.length ≤ s.capacity := hr
      exact Nat.mod_eq_of_lt (by omega)
    refine ⟨hsized, ⟨hwf, hin, ?_, ?_⟩, ⟨nofun, nofun⟩, .inl ⟨rfl, rfl, rfl, rfl⟩⟩
    · rw [publishOk_outBuf, publishOk_outLen, hlen, ofBytes_keys, List.range_eq_range']
    · rw [publishOk_outLen, hlen]
      exact hr
  | err k c =>
    refine ⟨hsized, ⟨hwf, hin, rfl, Nat.zero_le _⟩, ⟨nofun, nofun⟩, .inr ⟨rfl, ?_⟩⟩
    cases k with
    | invalidOption => exact .inl ⟨rfl, hr⟩
    | invalidArgument => exact hr.elim
    | invalidLength => exact .inr (.inl ⟨rfl, hr⟩)
    | invalidPadding => exact .inr (.inr (.inl ⟨rfl, hr⟩))
    | illegalCharacter => exact .inr (.inr (.inr (.inl ⟨rfl, hr⟩)))
    | capacityExceeded => exact .inr (.inr (.inr (.inr ⟨rfl, hr⟩)))

/-- A scan stops at a byte without a value, within the text (R165). -/
theorem scan_illegal_bounds {f : Format} {i pos : Nat} {t : List Byte} {b : Byte}
    (h : scanFrom f i t = .illegal b pos) : i < pos ∧ pos ≤ i + t.length := by
  induction t generalizing i with
  | nil => cases h
  | cons c t ih =>
    rw [List.length_cons]
    rw [scanFrom] at h
    split at h
    · have := ih h
      omega
    · split at h
      · cases hscan : scanFrom f (i + 1) t with
        | values vs => rw [hscan] at h; cases h
        | illegal b' pos' =>
          rw [hscan] at h
          cases h
          have := ih hscan
          omega
      · cases h
        omega

theorem scan_result_fits {f : Format} {cap : Nat} {t : List Byte} (hcap : cap ≤ 65536) (hlen : t.length ≤ cap) :
    (scanFrom f 0 t).result.fits cap := by
  cases hscan : scanFrom f 0 t with
  | values vs =>
    have hcount := length_of_scan hscan
    have hfilter := List.length_filter_le (fun c => !skips f c) t
    change (unpack vs).length ≤ cap
    rw [length_unpack]
    omega
  | illegal b pos =>
    have hnone := decMap_of_scan_illegal hscan
    obtain ⟨hlow, hhigh⟩ := scan_illegal_bounds hscan
    have hpos : (BitVec.ofNat 32 pos).toNat = pos := Nat.mod_eq_of_lt (by omega)
    refine ⟨?_, by rw [hpos]; omega, by rw [hpos]; omega, rfl⟩
    cases f with
    | rfc => exact .inl hnone
    | crk => exact .inr hnone

theorem decodeText_fits (f : Format) {cap : Nat} {t : List Byte} (hcap : cap ≤ 65536) (hlen : t.length ≤ cap) :
    (decodeText f t).fits cap := by
  cases f with
  | crk =>
    rw [decodeText_crk]
    exact scan_result_fits hcap hlen
  | rfc =>
    rw [decodeText_rfc]
    have hn : (BitVec.ofNat 32 t.length).toNat = t.length := Nat.mod_eq_of_lt (by omega)
    by_cases h8 : t.length % 8 = 0
    · by_cases hbad : badPadCount (trailingEq t)
      · have hle := trailingEq_le t
        have hp : (BitVec.ofNat 32 (trailingEq t)).toNat = trailingEq t := Nat.mod_eq_of_lt (by omega)
        rw [padCheck_of_padding h8 hbad]
        refine ⟨rfl, rfl, ?_, by rw [hp]; omega⟩
        rw [hp]
        have hcount {k : Nat} : trailingEq t = k → BitVec.ofNat 32 (trailingEq t) = BitVec.ofNat 32 k :=
          congrArg (BitVec.ofNat 32)
        exact hbad.imp_right (Or.imp hcount (Or.imp hcount hcount))
      · rw [badPadCount] at hbad
        rw [padCheck_of_accepted h8 (by omega)]
        exact scan_result_fits hcap ((List.length_take_le' _ _).trans hlen)
    · rw [padCheck_of_length _ h8]
      exact ⟨rfl, rfl, by rw [hn]; exact h8, by rw [hn]; exact hlen⟩

/-- A length that CapacityExceeded reports is one that does not fit and does not wrap (R225). -/
theorem failCount_capacityExceeded_fits {cap n : Nat} (hcap : cap < n) (hn : n < 2 ^ 32) :
    (Result.failCount .capacityExceeded n).fits cap := by
  refine ⟨rfl, rfl, ?_⟩
  rwa [BitVec.toNat_ofNat, Nat.mod_eq_of_lt hn]

theorem encLen_le (f : Format) (n : Nat) : encLen f n ≤ 2 * n + 8 := by
  cases f with
  | rfc => simp only [encLen]; omega
  | crk => simp only [encLen, symbolCount]; omega

theorem runCommand_fits {cap n : Nat} (hcap : cap ≤ 65536) (hn : n < 2 ^ 32) (op : BitVec 1) (fmt : BitVec 2)
    (inByte : Nat → Byte) : (runCommand cap op fmt n inByte).fits cap := by
  cases hfmt : fmt.getLsbD 1 with
  | true =>
    rw [runCommand_of_reserved hfmt]
    refine ⟨rfl, rfl, ?_⟩
    change fmt.setWidth 32 = 2 ∨ fmt.setWidth 32 = 3
    revert fmt
    decide
  | false =>
    rw [← code_formatOf hfmt]
    by_cases hlong : cap < n
    · rw [runCommand_of_long_input _ hlong]
      exact failCount_capacityExceeded_fits hlong hn
    · have hle : n ≤ cap := Nat.le_of_not_lt hlong
      obtain rfl | rfl : op = 0 ∨ op = 1 := op.eq_zero_or_eq_one
      · by_cases htext : cap < encLen (formatOf fmt) n
        · have hbound := encLen_le (formatOf fmt) n
          rw [runCommand_encode_of_long_text hle htext]
          exact failCount_capacityExceeded_fits htext (by omega)
        · rw [runCommand_encode_of_fits hle (Nat.le_of_not_lt htext)]
          change (encodeText _ _).length ≤ cap
          rw [length_encodeText, length_bufferInput]
          exact Nat.le_of_not_lt htext
      · rw [runCommand_decode_of_fits hle]
        exact decodeText_fits _ hcap (by rwa [length_bufferInput])

theorem engineTurn_legal {s : State} (h : s.Legal) : s.engineTurn.Legal := by
  cases hb : s.busy with
  | false => rwa [engineTurn_of_idle hb]
  | true =>
    rw [engineTurn_of_busy hb]
    have ⟨⟨_, hcap⟩, _⟩ := h
    exact legal_publish h (runCommand_fits hcap s.inLen.isLt s.op s.fmt s.inByte)

/-- Settles O55: a transaction, a completion and a reset each leave a legal state. -/
theorem everyStepKeepsTheStateLegal : Obligations.EveryStepKeepsTheStateLegal := by
  intro s t hs h
  obtain ⟨w, rest, _, hx⟩ | ⟨rest, _, rfl⟩ | ⟨rest, _, rfl⟩ | ⟨_, rfl⟩ := step_next_cases h
  · exact exec_legal hx (show (s.setInputs rest).Legal from hs)
  · exact engineTurn_legal (show (s.setInputs rest).Legal from hs)
  · obtain ⟨hsized, _⟩ := hs
    exact legal_resetPulse (s := s.setInputs rest) hsized
  · exact engineTurn_legal hs

/-! ## The round trip through the buffers -/

/-- The text that stands in the first buffer is the input of the second command. -/
theorem bufferInput_of_reads {bytes : List Byte} {inByte : Nat → Byte}
    (h : ∀ i, i < bytes.length → bytes[i]? = some (inByte i)) : bufferInput inByte bytes.length = bytes := by
  apply List.ext_getElem?
  intro i
  rcases Nat.lt_or_ge i bytes.length with hi | hi
  · rw [h i hi]
    simp [bufferInput, hi]
  · rw [List.getElem?_eq_none hi, List.getElem?_eq_none (by rwa [length_bufferInput])]

theorem ok_of_err_eq_zero {s : State} (hb : s.busy = true) (h : s.engineTurn.err = 0) :
    ∃ bytes, s.outcome = .ok bytes := by
  rw [engineTurn_of_busy hb] at h
  cases hout : s.outcome with
  | ok bytes => exact ⟨bytes, rfl⟩
  | err k c =>
    rw [hout, publishErr_err] at h
    cases k <;> cases h

theorem encodeText_of_runCommand_ok {f : Format} {cap n : Nat} {inByte : Nat → Byte} {bytes : List Byte}
    (h : runCommand cap 0 f.code n inByte = .ok bytes) :
    bytes = encodeText f (bufferInput inByte n) ∧ bytes.length ≤ cap := by
  rw [runCommand_encode] at h
  split_ifs at h with hn htext
  · cases h
  · cases h
  · cases h
    rw [length_encodeText, length_bufferInput]
    exact ⟨rfl, Nat.le_of_not_lt htext⟩

/-- Settles O59: the second command decodes the text that the first one left, and the round trip of the codec gives the
data. -/
theorem encodedBufferDecodesToTheData : Obligations.EncodedBufferDecodesToTheData := by
  intro s s' fmt _ _ hlegal hcap hfmt u u' herr hlen hreads
  have ⟨⟨_, hsize⟩, _⟩ := hlegal
  have hcode : fmt = (formatOf fmt).code := (code_formatOf hfmt).symm
  obtain ⟨bytes, hout⟩ := ok_of_err_eq_zero (s := (s.setCtrl 0 fmt).startCommand) rfl herr
  obtain ⟨_, _, _, _, _, _, houtLen, hbytes⟩ := engineTurn_shows_ok (s := (s.setCtrl 0 fmt).startCommand) rfl hout
  have hrun : runCommand s.capacity 0 (formatOf fmt).code s.inLen.toNat s.inByte = .ok bytes := by
    rw [← hcode]
    exact hout
  obtain ⟨htext, hfits⟩ := encodeText_of_runCommand_ok hrun
  have hcount : u.outLen.toNat = bytes.length := by
    rw [houtLen]
    exact Nat.mod_eq_of_lt (by omega)
  have hinput : bufferInput s'.inByte bytes.length = bytes :=
    bufferInput_of_reads fun i hi => (hbytes i).symm.trans (hreads i (hcount ▸ hi))
  refine engineTurn_shows_ok (s := (s'.setCtrl 1 fmt).startCommand) rfl ?_
  change runCommand s'.capacity 1 fmt s'.inLen.toNat s'.inByte = .ok (bufferInput s.inByte s.inLen.toNat)
  rw [hcode, hlen, hcount, runCommand_decode_of_fits (hcap ▸ hfits), hinput, htext, decodeOfEncodeIsTheData]

end Sys2Proof.Machine
end

section
/-! PROOFS. The pseudo-instructions of host programs (spec/30_encoding.md R79) under every schedule of engine turns. -/

namespace Sys2Proof.Machine

/-! ## One line of a program -/

/-- A line's wire runs as the instruction that it encodes. -/
theorem runWire_encode {i : Instr} (h : i.wf = true) (s : State) : runWire (encode i) s = exec i s := by
  rw [runWire, decodeOfEncodeIsTheInstruction i h]

/-- A program of one transaction answers what the transaction answers. -/
theorem runHost_issue (turn : Bool) (turns : List Bool) (w : Wire) (s : State) :
    runHost (turn :: turns) [.issue w] s = some (runWire w (s.turnIf turn)) := by
  rw [runHost, HostOp.wire]
  cases hw : runWire w (s.turnIf turn) with
  | next t => simp [HostOp.again]
  | fault r => rfl
  | refused r => rfl

/-- On an idle core a line that answers next is done, whatever the schedule says. -/
theorem runHost_issue_of_idle {s t : State} {w : Wire} (hidle : s.busy = false) (hw : runWire w s = .next t)
    (turn : Bool) (turns : List Bool) (ops : List HostOp) :
    runHost (turn :: turns) (.issue w :: ops) s = runHost turns ops t :=
  runHost_next (op := .issue w) (by rw [turnIf_of_idle hidle]; exact hw)

/-! ## LOAD -/

/-- The state after the byte writes of LOAD from index `i` on. -/
def State.loadFrom (i : Nat) : List Byte → State → State
  | [], s => s
  | b :: bs, s => State.loadFrom (i + 1) bs ((s.setInByte i b).respond .written)

/-- LOAD stores IN_BUF bytes and is answered; nothing else changes. -/
theorem loadFrom_frame (i : Nat) (bs : List Byte) (s : State) :
    s.loadFrom i bs = { s with inBuf := (s.loadFrom i bs).inBuf, response := (s.loadFrom i bs).response } := by
  induction bs generalizing i s with
  | nil => rfl
  | cons b bs ih =>
    rw [State.loadFrom, ih]
    rfl

theorem read?_loadFrom (i : Nat) (bs : List Byte) (s : State) (a : Nat) :
    (s.loadFrom i bs).inBuf.read? a = if i ≤ a ∧ a < i + bs.length then bs[a - i]? else s.inBuf.read? a := by
  induction bs generalizing i s with
  | nil =>
    rw [if_neg (by simp)]
    rfl
  | cons b bs ih =>
    rw [State.loadFrom, ih, respond_inBuf, setInByte_inBuf, read?_write, List.length_cons]
    obtain hlow | rfl | hhigh := Nat.lt_trichotomy a i
    · rw [if_neg (by omega), if_neg (by omega), if_neg (by omega)]
    · rw [if_neg (by omega), if_pos rfl, if_pos (by omega), Nat.sub_self, List.getElem?_cons_zero]
    · have hnext : a - i = a - (i + 1) + 1 := by omega
      rw [if_neg (show ¬a = i by omega), hnext, List.getElem?_cons_succ]
      exact if_congr (by omega) rfl rfl

/-- Data bits 7:0 of a byte's word are the byte (R199). -/
theorem lane_setWidth (b : Byte) : lane (b.setWidth 32) 0 = b := by
  apply BitVec.eq_of_getLsbD_eq
  intro i hi
  simp [lane, hi, show i < 32 by omega]

/-- The byte writes of LOAD run one after the other on an idle core, whatever the schedule says. -/
theorem runHost_loadWires {s : State} {i : Nat} {bs : List Byte} {turns : List Bool} (hidle : s.busy = false)
    (hsize : s.capacity ≤ 65536) (hfits : i + bs.length ≤ s.capacity) (hturns : bs.length < turns.length)
    (ops : List HostOp) :
    ∃ turn rest, runHost turns ((loadWires i bs).map .issue ++ ops) s =
      runHost (turn :: rest) ops (s.loadFrom i bs) := by
  induction bs generalizing s i turns with
  | nil =>
    obtain ⟨turn, rest, rfl⟩ := List.exists_cons_of_length_pos hturns
    exact ⟨turn, rest, rfl⟩
  | cons b bs ih =>
    rw [List.length_cons] at hfits hturns
    obtain ⟨turn, rest, rfl⟩ := List.exists_cons_of_length_pos (Nat.zero_lt_of_lt hturns)
    have hidx : (BitVec.ofNat 16 i).toNat = i := Nat.mod_eq_of_lt (by omega)
    have hmap : s.mapsByte (BitVec.ofNat 16 i) = true := (mapsByte_iff _ _).mpr (by rw [hidx]; omega)
    have hwrite : runWire (encode (.wr8In (BitVec.ofNat 16 i) (b.setWidth 32))) s =
        .next ((s.setInByte i b).respond .written) := by
      rw [runWire_encode rfl, exec_wr8In_of_idle hmap hidle, hidx, lane_setWidth]
    rw [loadWires, List.map_cons, List.cons_append, runHost_issue_of_idle hidle hwrite, State.loadFrom]
    exact ih hidle hsize (show i + 1 + bs.length ≤ s.capacity by omega) (Nat.lt_of_succ_lt_succ hturns)

/-- LOAD on an idle core. -/
theorem runHost_load {s : State} {bytes : List Byte} {turns : List Bool} (hidle : s.busy = false)
    (hsize : s.capacity ≤ 65536) (hfits : bytes.length ≤ s.capacity) (hturns : bytes.length < turns.length) :
    runHost turns (Pseudo.load bytes).expand s =
      some (.next (((s.loadFrom 0 bytes).setInLen (BitVec.ofNat 32 bytes.length)).respond .written)) := by
  obtain ⟨turn, rest, hrun⟩ := runHost_loadWires hidle hsize (by rwa [Nat.zero_add]) hturns
    [.issue (wr32RegWire .inLen (BitVec.ofNat 32 bytes.length))]
  have hidle' : (s.loadFrom 0 bytes).busy = false := by
    rw [loadFrom_frame]
    exact hidle
  rw [Pseudo.expand, hrun, runHost_issue, turnIf_of_idle hidle', wr32RegWire, runWire_encode rfl, exec_wr32Reg_offset,
    writeReg_inLen_of_idle hidle']

/-! ## The command pseudo-instructions -/

/-- A write of a command word means its form, wherever the engine's turn falls. -/
theorem runHost_ctrl (turn : Bool) (turns : List Bool) (w : Word) (s : State) :
    runHost (turn :: turns) [.issue (wr32RegWire .ctrl w)] s = some (exec (decode (.ctrl w)) (s.turnIf turn)) := by
  rw [runHost_issue, wr32RegWire, runWire_encode rfl]
  exact congrArg some (commandWordMeansItsWriteToCtrl w _)

theorem ctrlFields_eq (op : BitVec 1) (fmt : BitVec 2) :
    ctrlFields op fmt = ctrlWord 0 op fmt ⟨0, 0, 0⟩ ∧ ctrlFields op fmt ||| 1 = ctrlWord 1 op fmt ⟨0, 0, 0⟩ := by
  revert op fmt
  decide

/-! ## WAIT -/

/-- The final read of WAIT, on an idle core. -/
theorem runHost_lastRead {s : State} (hidle : s.busy = false) (turn : Bool) (turns : List Bool) :
    runHost (turn :: turns) [.issue (rd32RegWire .status)] s = some (.next (s.respond (.read s.statusView))) := by
  rw [runHost_issue, turnIf_of_idle hidle, runWire_status]

/-- A poll that reads DONE is followed by the final read, which answers the same STATUS. -/
theorem runHost_wait_of_done {s u : State} {turn : Bool} (hu : s.turnIf turn = u) (hidle : u.busy = false)
    (hdone : u.done = true) (turn' : Bool) (turns : List Bool) :
    runHost (turn :: turn' :: turns) Pseudo.wait.expand s =
      some (.next { u with response := .read u.statusView }) := by
  rw [Pseudo.expand, runHost_poll, hu, if_pos hdone, runHost_lastRead (s := u.respond (.read u.statusView)) hidle]
  rfl

/-- A poll that does not read DONE is issued again. -/
theorem runHost_wait_of_not_done {s u : State} {turn : Bool} (hu : s.turnIf turn = u) (hdone : u.done = false)
    (turns : List Bool) :
    runHost (turn :: turns) Pseudo.wait.expand s =
      runHost turns Pseudo.wait.expand (u.respond (.read u.statusView)) := by
  rw [Pseudo.expand, runHost_poll, hu, if_neg (Bool.eq_false_iff.mp hdone)]

/-- BUSY and DONE are never both 1 (R27), before and after an engine's turn. -/
theorem turnIf_done_of_busy {s : State} (h : s.busy = true → s.done = false) (turn : Bool) :
    (s.turnIf turn).busy = true → (s.turnIf turn).done = false := by
  cases turn with
  | false => exact h
  | true =>
    cases hb : s.busy with
    | false => rw [turnIf_true, engineTurn_of_idle hb]; exact h
    | true => intro hturn; simp [(engineTurn_done hb).1] at hturn

/-- WAIT ends only with DONE read, and then with the final read. -/
theorem runHost_wait_ends {s : State} {turns : List Bool} {o : Host.Outcome State Fault Refusal}
    (h : s.busy = true → s.done = false) (hrun : runHost turns Pseudo.wait.expand s = some o) :
    2 ≤ turns.length ∧ ∃ t, o = .next t ∧ t.busy = false ∧ t.done = true ∧ t.response = .read t.statusView := by
  induction turns generalizing s with
  | nil => cases hrun
  | cons turn turns ih =>
    have hu := turnIf_done_of_busy h turn
    cases hdone : (s.turnIf turn).done with
    | false =>
      rw [runHost_wait_of_not_done rfl hdone] at hrun
      obtain ⟨hlen, ht⟩ := ih (s := (s.turnIf turn).respond (.read (s.turnIf turn).statusView)) hu hrun
      exact ⟨hlen.trans (Nat.le_succ _), ht⟩
    | true =>
      have hidle : (s.turnIf turn).busy = false := by
        by_contra hb
        simp [hu (by simpa using hb)] at hdone
      cases turns with
      | nil => rw [Pseudo.expand, runHost_poll, if_pos hdone] at hrun; cases hrun
      | cons turn' turns =>
        rw [runHost_wait_of_done rfl hidle hdone] at hrun
        cases hrun
        exact ⟨by simp, _, rfl, hidle, hdone, rfl⟩

/-- Polls before DONE change only the answer. -/
theorem runHost_wait_polls {s : State} (hdone : s.done = false) (k : Nat) (turns : List Bool) :
    ∃ r, runHost (List.replicate k false ++ turns) Pseudo.wait.expand s =
      runHost turns Pseudo.wait.expand (s.respond r) := by
  induction k generalizing s with
  | zero => exact ⟨s.response, rfl⟩
  | succ k ih =>
    obtain ⟨r, hr⟩ := ih (s := s.respond (.read s.statusView)) hdone
    refine ⟨r, ?_⟩
    rw [List.replicate_succ, List.cons_append, runHost_wait_of_not_done (turnIf_false s) hdone]
    exact hr

/-- With no command running and DONE clear, WAIT polls as long as the schedule lasts. -/
theorem runHost_wait_of_never_started {s : State} (hidle : s.busy = false) (hdone : s.done = false)
    (turns : List Bool) : runHost turns Pseudo.wait.expand s = none := by
  induction turns generalizing s with
  | nil => rfl
  | cons turn turns ih =>
    rw [runHost_wait_of_not_done (turnIf_of_idle hidle turn) hdone]
    exact ih hidle hdone

/-- While a command runs WAIT polls until the engine's turn, and then shows the completed command's STATUS. -/
theorem runHost_wait_of_busy {s : State} (hb : s.busy = true) (hdone : s.done = false) (k : Nat) :
    runHost (List.replicate k false) Pseudo.wait.expand s = none ∧
      ∀ (turn : Bool) (turns : List Bool),
        runHost (List.replicate k false ++ true :: turn :: turns) Pseudo.wait.expand s =
          some (.next { s.engineTurn with response := .read s.engineTurn.statusView }) := by
  refine ⟨?_, fun turn turns => ?_⟩
  · obtain ⟨r, hr⟩ := runHost_wait_polls hdone k []
    rw [List.append_nil] at hr
    rw [hr]
    rfl
  · obtain ⟨r, hr⟩ := runHost_wait_polls hdone k (true :: turn :: turns)
    obtain ⟨hidle', hdone'⟩ := engineTurn_done hb
    rw [hr, runHost_wait_of_done ((turnIf_true _).trans (engineTurn_respond r s)) hidle' hdone']
    rfl

/-- Settles O60: LOAD byte by byte, the command words by their forms, and WAIT poll by poll. -/
theorem pseudoInstructionsMeanTheirExpansions : Obligations.PseudoInstructionsMeanTheirExpansions := by
  refine ⟨fun s bytes turns hidle hsize hfits hturns => ?_, fun s turn turns => ?_,
    fun s turns o h hrun => runHost_wait_ends h hrun, fun s k hb hdone => runHost_wait_of_busy hb hdone k,
    fun s turns hidle hdone => runHost_wait_of_never_started hidle hdone turns,
    fun s turn turn' turns hidle hdone => runHost_wait_of_done (turnIf_of_idle hidle turn) hidle hdone turn' turns⟩
  · refine ⟨_, runHost_load hidle hsize hfits hturns, ?_, fun i hi => ?_, fun i hi => ?_⟩
    · rw [loadFrom_frame]
      rfl
    · refine (read?_loadFrom 0 bytes s i).trans ?_
      rw [if_pos (by omega), Nat.sub_zero]
    · refine (read?_loadFrom 0 bytes s i).trans ?_
      rw [if_neg (by omega)]
  · have hcommand {w : Word} {i : Instr} (h : decode (.ctrl w) = i) :
        runHost (turn :: turns) [.issue (wr32RegWire .ctrl w)] s = some (exec i (s.turnIf turn)) := by
      rw [runHost_ctrl, h]
    obtain ⟨_, hencRfc, hencCrk, hdecRfc, hdecCrk, _⟩ := specWordsDecodeToTheirInstructions
    refine ⟨hcommand hencRfc, hcommand hencCrk, hcommand hdecRfc, hcommand hdecCrk, fun op fmt => hcommand ?_,
      fun op fmt => hcommand ?_⟩
    · rw [(ctrlFields_eq op fmt).1, decode_ctrlWord]
      rfl
    · rw [(ctrlFields_eq op fmt).2]

end Sys2Proof.Machine
end
